-- ==== Sys2Proof/Word.lean ====
section
/-! DEFINITION. The two word types of the HCF (00_scope.md R8): a byte (`u8`) and a 32-bit register word (`u32`).
Lengths and addresses in range checks are natural numbers, since no sum in such a check wraps (R10). -/

namespace Sys2Proof

/-- A byte, `u8` of R8. -/
abbrev Byte := BitVec 8

/-- A register word, `u32` of R8; every register is 32 bits wide (00_scope.md section 3). -/
abbrev Word := BitVec 32

end Sys2Proof
end

