-- ==== Sys2Proof/Config.lean ====
section
/-! DEFINITION. What an implementation of the HCF fixes (the three open parameters of 00_scope.md section 3 and the ID
constant), and the free values: what the spec leaves unspecified, as constants with no body. -/

namespace Sys2Proof

/-- The open parameters (R7, 93_implementation_defined.md U18). A state carries them unchanged for its whole life, so a
statement about every state is a statement about every legal choice of them (log entry 1). -/
structure Config where
  /-- `BUF_BYTES`: size of the buffer memory in bytes. -/
  bufBytes : Nat
  /-- `REG_BASE`: host bus address of register offset 0x00. -/
  regBase : Nat
  /-- `BUF_BASE`: host bus address of buffer byte 0. -/
  bufBase : Nat
deriving DecidableEq, Repr

namespace Config

/-- DESIGN CHOICE (log entry 1): the parameters that the one fixed state `State.reset` carries. `BUF_BYTES` is the value
the test vectors use (95_test_vectors.md, conventions); the two bases are any legal placement. -/
def sample : Config := { bufBytes := 256, regBase := 0, bufBase := 256 }

/-- The value ID reads (R3, R22): "HPCF". -/
def idValue : Word := 0x48504346#32

/-- Size of the register window in bytes (R60). -/
def windowBytes : Nat := 64

/-- FREE VALUE (R221, U1; log entry 2): what draw number `n` returns for buffer byte `a` when no write has set that byte
since reset, and what a host byte read of buffer byte `a` returns while BUSY = 1 (R234, U2). No body: nothing can be
proved of its value. -/
opaque freeByte (n a : Nat) : Byte

/-- FREE VALUE (R234, U2; log entry 3): what a 32-bit host read with draw number `n` returns while BUSY = 1, except for
STATUS, ID and BUFSIZE. No body: nothing can be proved of its value. -/
opaque freeWord (n : Nat) : Word

end Config
end Sys2Proof
end

