-- ==== Sys2Proof/Syntax.lean ====
section
/-! DEFINITION. The syntax of the HCF: its commands (one constructor per row of spec/opcode_table.json), its register
names, and what its two agents may do: a host bus access, and a turn in the total order of all steps (R14, R74). -/

namespace Sys2Proof

/-- The commands (R91). Commands carry no operand but the I bit of CRC (R93). -/
inductive Instr where
  /-- CRC (R120): `init` is the I bit, command bit 8; `crc.init` is `crc true`, `crc` is `crc false` (R98). -/
  | crc (init : Bool)
  /-- TCCHK (R140): check the type code held in TYPE. -/
  | tcchk
  /-- ENC (R160): serialize one chunk record. -/
  | enc
  /-- DEC (R168): deserialize and verify one chunk record. -/
  | dec
deriving DecidableEq, Repr

/-- The sixteen register slots (R20), in the order of their offsets. -/
inductive Reg where
  | id | cmd | status | src | len | dst | typ | crcAcc | crcOut | crcDecl | dlen | rlen | tcflags | bufsize
  /-- Reserved slot 0x38 (R40). -/
  | rsv38
  /-- Reserved slot 0x3C (R40). -/
  | rsv3c
deriving DecidableEq, Repr

/-- The access kinds of R20 and R21. CMD is RW with a launching write, so it has a kind of its own. -/
inductive AccessKind where
  | ro | rw | launch | razwi
deriving DecidableEq, Repr

/-- One host bus access (R60 to R69): its width in bits, its bus address, and for a write the value. An 8-bit write
carries its byte in the low 8 bits of `v`. Every width is expressible, so that the unsupported ones can be refused. -/
inductive Access where
  | read (bits addr : Nat)
  | write (bits addr : Nat) (v : Word)
deriving DecidableEq, Repr

namespace Access

/-- The access's width in bits. -/
def bits : Access → Nat
  | read n _ => n
  | write n _ _ => n

/-- The access's bus address. -/
def addr : Access → Nat
  | read _ a => a
  | write _ a _ => a

end Access

/-- One place in the total order of host accesses, ENGINE steps and resets (R74, R223, R240; log entry 5). -/
inductive Turn where
  /-- The HOST issues one access (R14). -/
  | host (a : Access)
  /-- The ENGINE is given its chance to step (R231). -/
  | engine
  /-- The platform applies reset (R223). -/
  | reset
deriving DecidableEq, Repr

end Sys2Proof
end

