-- ==== Sys2Proof/Machine/State.lean ====
section
/-! DEFINITION. The state of the HCF as plain data: the registers of R20, the buffer memory of R41, the parameters of R7,
the order of the steps still to come (R74), and the reasons a step can stop. -/

namespace Sys2Proof.Machine

/-- The error codes of R190. Values 7 to 15 are never written (R27), so they have no constructor. -/
inductive ErrCode where
  | none | invalidTypeCode | truncatedInput | checksumMismatch | range | overlap | illegalCommand
deriving DecidableEq, Repr

/-- STATUS by its fields (R24 to R28); `Status.word` gives the 32-bit register. STATUS is read-only and its other bits
always read 0, so no bit is lost. -/
structure Status where
  busy : Bool
  err : Bool
  ovr : Bool
  errcode : ErrCode
deriving DecidableEq, Repr

/-- What the bus returned to the HOST for its most recent access. The model's own record of an output (log entry 4). -/
inductive Response where
  | byte (b : Byte)
  | word (w : Word)
  | written
deriving DecidableEq, Repr

/-- The buffer memory BUF (R41): address and byte pairs, addresses strictly rising (`Memory.wf`). A byte is listed exactly
when a write has set it since reset (R221). -/
abbrev Memory := List Host.Cell

/-- The state of the HCF. ID, BUFSIZE and the two reserved slots are constants of the register read (R44); the pending
command of R43 is `cmd` while `status.busy`. -/
structure State where
  /-- The parameters (R7). No step changes them. -/
  cfg : Config
  /-- CMD (R23). -/
  cmd : Word
  /-- STATUS (R24 to R28). -/
  status : Status
  /-- SRC (R29). -/
  src : Word
  /-- LEN (R30). -/
  len : Word
  /-- DST (R31). -/
  dst : Word
  /-- TYPE (R32). -/
  typ : Word
  /-- CRC_ACC (R33). -/
  crcAcc : Word
  /-- CRC_OUT (R34). -/
  crcOut : Word
  /-- CRC_DECL (R35). -/
  crcDecl : Word
  /-- DLEN (R36). -/
  dlen : Word
  /-- RLEN (R37). -/
  rlen : Word
  /-- TCFLAGS (R38). -/
  tcflags : Word
  /-- BUF (R41). -/
  mem : Memory
  /-- The turns still to come, first turn first (R74): the model's input (log entry 5). -/
  agenda : List Turn
  /-- The bus's answer to the HOST's most recent access: the model's output (log entry 4). -/
  resp : Option Response
  /-- The next draw number of the free values (log entry 2). -/
  draws : Nat
deriving DecidableEq, Repr

/-- Why the model stops: a bus error, "a fault of the HOST agent" (R69, U3). Raised by a host access alone, never by a
command. All four are safe: nothing can be proved of a run past the fault (log entry 6). -/
inductive Fault where
  /-- A width the target does not support (R68). Raised by a host access; safe. -/
  | busWidth
  /-- A 32-bit access to an offset or buffer address that is no multiple of 4 (R69). Raised by a host access; safe. -/
  | busMisaligned
  /-- A buffer access that runs past BUF_BYTES (R69). Raised by a host access; safe. -/
  | busBufferEnd
  /-- An access to neither window (R63, D9, U3). Raised by a host access; safe. -/
  | busOutsideWindows
deriving DecidableEq, Repr

/-- Why a step has no meaning. -/
inductive Refusal where
  /-- The instruction has no meaning yet. Raised by a refused arm of `exec`; safe. No arm is refused. -/
  | notModelled (mnemonic : String)
deriving DecidableEq, Repr

namespace State

/-- The state right after reset for the parameters `c` (R20, R220). No buffer byte is set (R221). -/
def resetOf (c : Config) : State :=
  { cfg := c
    cmd := 0#32
    status := { busy := false, err := false, ovr := false, errcode := .none }
    src := 0#32
    len := 0#32
    dst := 0#32
    typ := 0#32
    crcAcc := 0xFFFFFFFF#32
    crcOut := 0#32
    crcDecl := 0#32
    dlen := 0#32
    rlen := 0#32
    tcflags := 0#32
    mem := []
    agenda := []
    resp := none
    draws := 0 }

/-- The machine right after reset (R220), for the parameters of log entry 1. -/
def reset : State := resetOf Config.sample

end State
end Sys2Proof.Machine
end

