-- ==== Sys2Proof/Machine/Operands.lean ====
section
/-! DEFINITION. Operand forms and address tests: big-endian conversion (R11), the type-code bytes of TYPE, the span and
overlap tests on unbounded naturals (R10, R13), and the register map's offsets and access kinds (R20). -/

namespace Sys2Proof.Machine

/-- `to_be32(v)` of R11: the four bytes of a word, most significant first. -/
def toBe32 (v : Word) : List Byte :=
  [v.extractLsb' 24 8, v.extractLsb' 16 8, v.extractLsb' 8 8, v.extractLsb' 0 8]

/-- `be32(b)` of R11, for a 4-byte sequence: each byte shifts the earlier ones up by 8 bits. -/
def be32 (bs : List Byte) : Word :=
  bs.foldl (fun acc b => (acc <<< 8) ||| b.setWidth 32) 0#32

/-- `tc_bytes(w)` of R13: the type-code bytes held in TYPE. -/
def tcBytes (w : Word) : List Byte := toBe32 w

/-- `span_ok(a, n)` of R13, an unbounded sum (R10). -/
def spanOk (c : Config) (a n : Nat) : Bool := a + n ≤ c.bufBytes

/-- `overlap(a, m, b, n)` of R13: the two byte ranges share a byte. -/
def overlap (a m b n : Nat) : Bool := 0 < m && 0 < n && a < b + n && b < a + m

end Sys2Proof.Machine

namespace Sys2Proof.Reg

/-- The byte offset of each register slot (R20). -/
def offset : Reg → Nat
  | .id => 0x00
  | .cmd => 0x04
  | .status => 0x08
  | .src => 0x0C
  | .len => 0x10
  | .dst => 0x14
  | .typ => 0x18
  | .crcAcc => 0x1C
  | .crcOut => 0x20
  | .crcDecl => 0x24
  | .dlen => 0x28
  | .rlen => 0x2C
  | .tcflags => 0x30
  | .bufsize => 0x34
  | .rsv38 => 0x38
  | .rsv3c => 0x3C

/-- The access kind of each register slot (R20). -/
def access : Reg → AccessKind
  | .id => .ro
  | .cmd => .launch
  | .status => .ro
  | .src => .rw
  | .len => .rw
  | .dst => .rw
  | .typ => .rw
  | .crcAcc => .rw
  | .crcOut => .ro
  | .crcDecl => .ro
  | .dlen => .ro
  | .rlen => .ro
  | .tcflags => .ro
  | .bufsize => .ro
  | .rsv38 => .razwi
  | .rsv3c => .razwi

/-- All sixteen slots. -/
def all : List Reg :=
  [.id, .cmd, .status, .src, .len, .dst, .typ, .crcAcc, .crcOut, .crcDecl, .dlen, .rlen, .tcflags, .bufsize,
    .rsv38, .rsv3c]

/-- The slot that window offset `off` reaches: the one at `off - (off mod 4)` (R62). -/
def atOffset (off : Nat) : Option Reg := all.find? (fun r => r.offset == off - off % 4)

/-- A read while BUSY = 1 returns the current value of STATUS, ID and BUFSIZE alone (R234). -/
def readableWhileBusy : Reg → Bool
  | .status | .id | .bufsize => true
  | .cmd | .src | .len | .dst | .typ | .crcAcc | .crcOut | .crcDecl | .dlen | .rlen | .tcflags | .rsv38 | .rsv3c => false

end Sys2Proof.Reg
end

