-- ==== Sys2Proof/Machine/Flags.lean ====
section
/-! DEFINITION. Flag computations: the type-code predicates and the TCFLAGS word (41_typecode.md R130 to R137), and the
STATUS word with its error codes (R27, R28, R190). -/

namespace Sys2Proof.Machine

/-- `upper(b)` of R131. -/
def upper (b : Byte) : Bool := 0x41 ≤ b.toNat && b.toNat ≤ 0x5A

/-- `lower(b)` of R131. -/
def lower (b : Byte) : Bool := 0x61 ≤ b.toNat && b.toNat ≤ 0x7A

/-- `alpha(b)` of R131. -/
def alpha (b : Byte) : Bool := upper b || lower b

/-- `all_alpha(t)` of R130: exactly four bytes, each an ASCII letter. -/
def allAlpha (t : List Byte) : Bool := t.length == 4 && t.all alpha

/-- `critical(t)` of R132. -/
def critical (t : List Byte) : Bool := upper (t.getD 0 0#8)

/-- `public(t)` of R133. -/
def isPublic (t : List Byte) : Bool := upper (t.getD 1 0#8)

/-- `reserved_valid(t)` of R134. -/
def reservedValid (t : List Byte) : Bool := upper (t.getD 2 0#8)

/-- `safe_to_copy(t)` of R135: the one property that holds for a lowercase byte. -/
def safeToCopy (t : List Byte) : Bool := lower (t.getD 3 0#8)

/-- `valid(t)` of R136. -/
def valid (t : List Byte) : Bool := reservedValid t && allAlpha t

/-- A truth value as bit `k` of a word (R137: true = 1, false = 0). -/
def flagBit (p : Bool) (k : Nat) : Word := (BitVec.ofBool p).setWidth 32 <<< k

/-- `tc_flags(t)` of R137, for `t` with `all_alpha(t)`. -/
def tcFlags (t : List Byte) : Word :=
  1#32 ||| flagBit (critical t) 1 ||| flagBit (isPublic t) 2 ||| flagBit (reservedValid t) 3
    ||| flagBit (safeToCopy t) 4 ||| flagBit (valid t) 5

/-- The number of each error code (R190). -/
def ErrCode.num : ErrCode → BitVec 4
  | .none => 0#4
  | .invalidTypeCode => 1#4
  | .truncatedInput => 2#4
  | .checksumMismatch => 3#4
  | .range => 4#4
  | .overlap => 5#4
  | .illegalCommand => 6#4

/-- STATUS as a register word (R28): `BUSY | ERR << 1 | OVR << 2 | ERRCODE << 4`. -/
def Status.word (t : Status) : Word :=
  flagBit t.busy 0 ||| flagBit t.err 1 ||| flagBit t.ovr 2 ||| (t.errcode.num.setWidth 32 <<< 4)

end Sys2Proof.Machine
end

