-- ==== Sys2Proof/Machine/Ops.lean ====
section
/-! DEFINITION. The shared operations: the buffer memory (R12, R41), reading and writing a register slot (R21), accepting
a command (R23), ending one (R199), and reset (R220 to R222). -/

namespace Sys2Proof.Machine

namespace Memory

/-- What an address that no write has set since reset holds: no value (R221). A read of it is a free draw
(`State.readByte`), never a fixed byte (U1; log entry 2). -/
def unlisted : Option Byte := none

/-- The canonical form: addresses strictly rising, so equal memories are equal lists. -/
abbrev wf (m : Memory) : Prop := m.Pairwise (fun p q => p.1 < q.1)

/-- The byte the last write left at `a`, if any write has set it since reset (R72). -/
def get? : Memory → Nat → Option Byte
  | [], _ => unlisted
  | (k, b) :: m, a => if a = k then some b else get? m a

/-- Write one byte, keeping the canonical form. -/
def set : Memory → Nat → Byte → Memory
  | [], a, b => [(a, b)]
  | (k, v) :: m, a, b =>
    if a < k then (a, b) :: (k, v) :: m
    else if a = k then (a, b) :: m
    else (k, v) :: set m a b

/-- `MemWrite` of R12: write a byte sequence at `a`, `a + 1` and so on. -/
def write : Memory → Nat → List Byte → Memory
  | m, _, [] => m
  | m, a, b :: bs => write (set m a b) (a + 1) bs

end Memory

namespace State

/-- Buffer byte `a` as a read sees it: the last byte written, or a free draw where no write has set the byte since reset
(R72, R221, U1; log entry 2). -/
def readByte (s : State) (a : Nat) : Byte :=
  match s.mem.get? a with
  | some b => b
  | none => Config.freeByte s.draws a

/-- `MemRead(a, n)` of R12. -/
def memRead (s : State) (a n : Nat) : List Byte := (List.range' a n).map s.readByte

/-- Buffer write of a byte sequence (`MemWrite` of R12). -/
def memWrite (s : State) (a : Nat) (bs : List Byte) : State := { s with mem := s.mem.write a bs }

/-- The value of a register slot while BUSY = 0, and of STATUS, ID and BUFSIZE at all times (R20 to R40). -/
def readReg (s : State) : Reg → Word
  | .id => Config.idValue
  | .cmd => s.cmd
  | .status => s.status.word
  | .src => s.src
  | .len => s.len
  | .dst => s.dst
  | .typ => s.typ
  | .crcAcc => s.crcAcc
  | .crcOut => s.crcOut
  | .crcDecl => s.crcDecl
  | .dlen => s.dlen
  | .rlen => s.rlen
  | .tcflags => s.tcflags
  | .bufsize => BitVec.ofNat 32 s.cfg.bufBytes
  | .rsv38 => 0#32
  | .rsv3c => 0#32

/-- An accepted CMD write (R23): CMD takes the word, STATUS becomes BUSY alone, all in one step. -/
def acceptCommand (s : State) (w : Word) : State :=
  { s with cmd := w, status := { busy := true, err := false, ovr := false, errcode := .none } }

/-- A host write of `v` to a register slot while BUSY = 0 (R21, R23): RO and RAZ/WI slots ignore it. -/
def writeReg (s : State) (v : Word) : Reg → State
  | .cmd => s.acceptCommand v
  | .src => { s with src := v }
  | .len => { s with len := v }
  | .dst => { s with dst := v }
  | .typ => { s with typ := v }
  | .crcAcc => { s with crcAcc := v }
  | .id | .status | .crcOut | .crcDecl | .dlen | .rlen | .tcflags | .bufsize => s
  | .rsv38 | .rsv3c => s

/-- A host write while BUSY = 1 (R26, R233): ignored, and OVR is set. -/
def overrun (s : State) : State := { s with status := { s.status with ovr := true } }

/-- Completion (R199): BUSY is cleared and the error code recorded; OVR is kept. The draw number moves on, so that no two
commands share a free draw (log entry 2). -/
def completed (s : State) (code : ErrCode) : State :=
  { s with
    status := { s.status with busy := false, err := code != .none, errcode := code }
    draws := s.draws + 1 }

/-- Reset applied by the platform (R220 to R223): every register at its reset value, no pending command, no buffer byte
set. The parameters, the turns still to come and the draw numbers are not the HCF's state and go on. -/
def applyReset (s : State) : State :=
  { resetOf s.cfg with agenda := s.agenda, draws := s.draws + 1 }

end State

/-- The command ends without error (R199). -/
def finish (s : State) : Host.Outcome State Fault Refusal := .next (s.completed .none)

/-- `raise` of R12: the command ends at once with an error code; the HCF's one exception entry (R199, R200). The pc, the
saved state and the return of a trap do not exist here (R199, R204). -/
def raise (code : ErrCode) (s : State) : Host.Outcome State Fault Refusal := .next (s.completed code)

end Sys2Proof.Machine
end

