-- ==== Sys2Proof/Machine/Bus.lean ====
section
/-! DEFINITION. The HOST agent's accesses (20_memory.md; R21, R233, R234): which window an access reaches, the width and
alignment rules, and what a read returns and a write does in either state of the HCF. -/

namespace Sys2Proof.Machine

/-- What a bus address reaches (R61, R62). -/
inductive Target where
  /-- A register slot; `off` is the offset in the register window. -/
  | slot (r : Reg) (off : Nat)
  /-- Buffer address `a`. -/
  | buffer (a : Nat)
  /-- Neither window (R63). -/
  | outside
deriving DecidableEq, Repr

/-- The window an access address lies in (R61, R62). -/
def target (c : Config) (addr : Nat) : Target :=
  if c.regBase ≤ addr ∧ addr < c.regBase + Config.windowBytes then
    match Reg.atOffset (addr - c.regBase) with
    | some r => .slot r (addr - c.regBase)
    | none => .outside
  else if c.bufBase ≤ addr ∧ addr < c.bufBase + c.bufBytes then .buffer (addr - c.bufBase)
  else .outside

/-- The bus error an access of `bits` bits to a target raises, if any (R68, R69). -/
def busError (c : Config) (bits : Nat) : Target → Option Fault
  | .slot _ off =>
    if bits ≠ 32 then some .busWidth else if off % 4 ≠ 0 then some .busMisaligned else none
  | .buffer a =>
    if bits = 8 then none
    else if bits = 32 then
      if a % 4 ≠ 0 then some .busMisaligned else if c.bufBytes < a + 4 then some .busBufferEnd else none
    else some .busWidth
  | .outside => some .busOutsideWindows

namespace State

/-- The bus answers the HOST. -/
def respond (s : State) (r : Response) : State := { s with resp := some r }

/-- What a read of a register slot returns: its value, or while BUSY = 1 a free word unless the slot stays readable
(R21, R234, U2; log entry 3). -/
def hostReadReg (s : State) (r : Reg) : Word :=
  if s.status.busy && !r.readableWhileBusy then Config.freeWord s.draws else s.readReg r

/-- What an 8-bit read of buffer byte `a` returns (R67), or while BUSY = 1 a free byte (R234). -/
def hostReadByte (s : State) (a : Nat) : Byte :=
  if s.status.busy then Config.freeByte s.draws a else s.readByte a

/-- What a 32-bit read of the buffer at `a` returns: big-endian (R66), or while BUSY = 1 a free word (R234). -/
def hostReadWord (s : State) (a : Nat) : Word :=
  if s.status.busy then Config.freeWord s.draws else be32 (s.memRead a 4)

end State

/-- A host read that raises no bus error: the value returned. Nothing of the HCF changes (R72); the draw number moves
on, so that two reads need not agree (U2; log entry 2). -/
def hostRead (bits : Nat) (t : Target) (s : State) : State :=
  match t with
  | .slot r _ => { s.respond (.word (s.hostReadReg r)) with draws := s.draws + 1 }
  | .buffer a =>
    if bits = 8 then { s.respond (.byte (s.hostReadByte a)) with draws := s.draws + 1 }
    else { s.respond (.word (s.hostReadWord a)) with draws := s.draws + 1 }
  | .outside => s

/-- A host write that raises no bus error: ignored with OVR set while BUSY = 1 (R233), else performed (R21, R66, R67). -/
def hostWrite (bits : Nat) (t : Target) (v : Word) (s : State) : State :=
  if s.status.busy then s.overrun.respond .written
  else
    match t with
    | .slot r _ => (s.writeReg v r).respond .written
    | .buffer a =>
      if bits = 8 then (s.memWrite a [v.setWidth 8]).respond .written
      else (s.memWrite a (toBe32 v)).respond .written
    | .outside => s

/-- One host access (R60): a bus error is a fault of the HOST (R69), and takes precedence over OVR (R233). -/
def hostAccess (acc : Access) (s : State) : Host.Outcome State Fault Refusal :=
  let t := target s.cfg acc.addr
  match busError s.cfg acc.bits t with
  | some f => .fault f
  | none =>
    match acc with
    | .read bits _ => .next (hostRead bits t s)
    | .write bits _ v => .next (hostWrite bits t v s)

end Sys2Proof.Machine
end

