-- ==== Sys2Proof/WellFormed.lean ====
section
/-! DEFINITION. What is well formed: a command, a command word by its fields (R90, R91, R95), the parameters (R7, R63),
and a host access's data. -/

namespace Sys2Proof

/-- Every command is well formed: its only encoded operand is a one-bit selector (R93), so the type admits no ill-formed
one; what can be ill formed is the command WORD (`cmdWordWf`). -/
def Instr.wf : Instr → Bool
  | .crc _ => true
  | .tcchk => true
  | .enc => true
  | .dec => true

/-- A command word's OP field, bits 3:0 (R90). -/
def cmdOp (w : Word) : BitVec 4 := w.extractLsb' 0 4

/-- A command word's I bit, bit 8 (R90). -/
def cmdInit (w : Word) : Bool := w.getLsbD 8

/-- Bits 7:4 are 0 (R90, R95). -/
def cmdLowReservedOk (w : Word) : Bool := w.extractLsb' 4 4 == 0#4

/-- Bits 31:9 are 0 (R90, R95). -/
def cmdHighReservedOk (w : Word) : Bool := w.extractLsb' 9 23 == 0#23

/-- OP is one of the four operations (R91; 0x0 and 0x5 to 0xF are reserved). -/
def cmdOpOk (w : Word) : Bool := 1 ≤ (cmdOp w).toNat && (cmdOp w).toNat ≤ 4

/-- I = 1 only with OP = 0x1 (R91, column "I allowed"). -/
def cmdInitOk (w : Word) : Bool := !cmdInit w || cmdOp w == 1#4

/-- A command word that obeys the format CMD32 field by field (R90, R91, R95). -/
def cmdWordWf (w : Word) : Bool :=
  cmdLowReservedOk w && cmdHighReservedOk w && cmdOpOk w && cmdInitOk w

namespace Config

/-- `12 <= BUF_BYTES <= 2^32 - 1` (R7). -/
def sizeOk (c : Config) : Bool := 12 ≤ c.bufBytes && c.bufBytes ≤ 2 ^ 32 - 1

/-- Both window bases are 4-aligned (R63). -/
def alignOk (c : Config) : Bool := c.regBase % 4 == 0 && c.bufBase % 4 == 0

/-- The two windows do not overlap (R63). -/
def windowsOk (c : Config) : Bool :=
  c.regBase + windowBytes ≤ c.bufBase || c.bufBase + c.bufBytes ≤ c.regBase

/-- Legal parameters (R7, R63). -/
def wf (c : Config) : Bool := c.sizeOk && c.alignOk && c.windowsOk

end Config

/-- A host write's data fits the width of the access (R66, R67). -/
def Access.wf : Access → Bool
  | .read _ _ => true
  | .write bits _ v => v.toNat < 2 ^ bits

end Sys2Proof
end

