-- ==== Sys2Proof/Decode.lean ====
section
/-! DEFINITION. Decoding and encoding command words (30_encoding.md). Decoding is total on all 2^32 words; a word that is
no command is named ILLEGAL, and the machine gives ILLEGAL its own meaning (R94). -/

namespace Sys2Proof

/-- What a command word stands for: a command, or R92's ILLEGAL. -/
inductive Decoded where
  | command (i : Instr)
  | illegal
deriving DecidableEq, Repr

/-- `decode(w)` of R92: exactly five words are legal. -/
def decode (w : Word) : Decoded :=
  if w = 0x00000001#32 then .command (.crc false)
  else if w = 0x00000101#32 then .command (.crc true)
  else if w = 0x00000002#32 then .command .tcchk
  else if w = 0x00000003#32 then .command .enc
  else if w = 0x00000004#32 then .command .dec
  else .illegal

/-- The OP value of R91. -/
def opOf : Instr → BitVec 4
  | .crc _ => 0x1#4
  | .tcchk => 0x2#4
  | .enc => 0x3#4
  | .dec => 0x4#4

/-- The I bit a command carries (R90, R91). -/
def initBitOf : Instr → BitVec 1
  | .crc init => BitVec.ofBool init
  | .tcchk => 0#1
  | .enc => 0#1
  | .dec => 0#1

/-- A command's word in the format CMD32 of R90, most significant field first: bits 31:9 zero, I, bits 7:4 zero, OP. -/
def encode (i : Instr) : Word := 0#23 ++ initBitOf i ++ 0#4 ++ opOf i

/-- The host's question: the command that the word with bits `w` decodes to. A command is one 32-bit word (R96), so the
number of bits the table gives a row adds nothing, and bits of `w` above bit 31 are no part of the word. -/
def decodeTableWord (_nbits w : Nat) : Option Instr :=
  match decode (BitVec.ofNat 32 w) with
  | .command i => some i
  | .illegal => none

end Sys2Proof
end

