-- ==== Sys2Proof/Machine/Crc.lean ====
section
/-! DEFINITION. The CRC-32 function (40_crc.md R110 to R115) and the CRC command (R120). -/

namespace Sys2Proof.Machine

/-- The reflected polynomial (R110). -/
def crcPoly : Word := 0xEDB88320#32

/-- The initial CRC register (R110, R113). -/
def crcInit : Word := 0xFFFFFFFF#32

/-- The final XOR (R110, R113). -/
def crcFinal (c : Word) : Word := c ^^^ 0xFFFFFFFF#32

/-- One of the eight rounds of R111's loop. -/
def crcShift (c : Word) : Word := if c.getLsbD 0 then (c >>> 1) ^^^ crcPoly else c >>> 1

/-- `crc_update(c, b)` of R111. -/
def crcUpdate (c : Word) (b : Byte) : Word := crcShift^[8] (c ^^^ b.setWidth 32)

/-- `crc_acc(c, s)` of R112: feed the bytes in order. -/
def crcFeed : Word → List Byte → Word
  | c, [] => c
  | c, b :: bs => crcFeed (crcUpdate c b) bs

/-- `CRC32(s)` of R113. -/
def crc32 (bs : List Byte) : Word := crcFinal (crcFeed crcInit bs)

/-- `T[n]` of R115, the constant lookup table of R42. No command uses it; it is stated equal to the loop. -/
def crcTable (n : Byte) : Word := crcUpdate 0#32 n

/-- CRC (R120): checksum the span `[SRC, SRC + LEN)`, from the initial register or from CRC_ACC. -/
def execCrc (init : Bool) (s : State) : Host.Outcome State Fault Refusal :=
  let a := s.src.toNat
  let n := s.len.toNat
  if spanOk s.cfg a n then
    let c0 := if init then crcInit else s.crcAcc
    let c := crcFeed c0 (s.memRead a n)
    finish { s with crcAcc := c, crcOut := crcFinal c }
  else raise .range s

end Sys2Proof.Machine
end

