-- ==== Sys2Proof/Machine/Framer.lean ====
section
/-! DEFINITION. The chunk-record framer's commands ENC and DEC (42_framer.md). Each test stands in the order of the
command's pseudocode, which is the priority of R202. -/

namespace Sys2Proof.Machine

/-- `rec(N, t, d, k)` of R154: the byte encoding of a chunk. -/
def recordBytes (n : Word) (t d : List Byte) (k : Word) : List Byte := toBe32 n ++ t ++ d ++ toBe32 k

/-- The CRC register after ENC's type code and data span (R160, `c`). -/
def encCrc (s : State) : Word := crcFeed crcInit (tcBytes s.typ ++ s.memRead s.src.toNat s.len.toNat)

/-- The record ENC writes (R160). -/
def encRecord (s : State) : List Byte :=
  recordBytes s.len (tcBytes s.typ) (s.memRead s.src.toNat s.len.toNat) (crcFinal (encCrc s))

/-- ENC (R160): serialize one chunk record. -/
def execEnc (s : State) : Host.Outcome State Fault Refusal :=
  let src := s.src.toNat
  let n := s.len.toNat
  let a := s.dst.toNat
  let t := tcBytes s.typ
  if !spanOk s.cfg src n then raise .range s
  else if !allAlpha t then raise .invalidTypeCode { s with tcflags := 0#32 }
  else if !spanOk s.cfg a (n + 12) then raise .range s
  else if overlap src n a (n + 12) then raise .overlap s
  else
    finish { s.memWrite a (encRecord s) with
      crcAcc := encCrc s
      crcOut := crcFinal (encCrc s)
      dlen := s.len
      rlen := BitVec.ofNat 32 (n + 12)
      tcflags := tcFlags t }

/-- DEC step 1 (R163): the length field `N`. -/
def decLen (s : State) : Word := be32 (s.memRead s.src.toNat 4)

/-- DEC step 2 (R164): the type code `t`. -/
def decType (s : State) : List Byte := s.memRead (s.src.toNat + 4) 4

/-- DEC step 3 (R165): the data `d`. -/
def decData (s : State) : List Byte := s.memRead (s.src.toNat + 8) (decLen s).toNat

/-- DEC step 4 (R165): the declared checksum `kd`. -/
def decDecl (s : State) : Word := be32 (s.memRead (s.src.toNat + 8 + (decLen s).toNat) 4)

/-- DEC step 5 (R166): the CRC register `c` after type code and data. -/
def decCrc (s : State) : Word := crcFeed crcInit (decType s ++ decData s)

/-- DEC (R168): deserialize and verify one chunk record. Each field is used only after the test that it is there. -/
def execDec (s : State) : Host.Outcome State Fault Refusal :=
  let src := s.src.toNat
  let avail := s.len.toNat
  let a := s.dst.toNat
  let n := (decLen s).toNat
  let k := crcFinal (decCrc s)
  if !spanOk s.cfg src avail then raise .range s
  else if avail < 4 then raise .truncatedInput s
  else if avail < 8 then raise .truncatedInput s
  else if !allAlpha (decType s) then raise .invalidTypeCode { s with tcflags := 0#32 }
  else if avail < 8 + n then raise .truncatedInput s
  else if avail < 12 + n then raise .truncatedInput s
  else if k ≠ decDecl s then
    raise .checksumMismatch { s with crcAcc := decCrc s, crcOut := k, crcDecl := decDecl s }
  else if !spanOk s.cfg a n then raise .range s
  else if overlap src (n + 12) a n then raise .overlap s
  else
    finish { s.memWrite a (decData s) with
      typ := be32 (decType s)
      dlen := decLen s
      rlen := BitVec.ofNat 32 (n + 12)
      crcAcc := decCrc s
      crcOut := k
      crcDecl := decDecl s
      tcflags := tcFlags (decType s) }

end Sys2Proof.Machine
end

