-- ==== Sys2Proof/Machine/TypeCode.lean ====
section
/-! DEFINITION. The type-code checker's command TCCHK (41_typecode.md R140); its predicates are in Machine/Flags.lean. -/

namespace Sys2Proof.Machine

/-- TCCHK (R140): check the type code held in TYPE. -/
def execTcchk (s : State) : Host.Outcome State Fault Refusal :=
  let t := tcBytes s.typ
  if allAlpha t then finish { s with tcflags := tcFlags t }
  else raise .invalidTypeCode { s with tcflags := 0#32 }

end Sys2Proof.Machine
end

