-- ==== Sys2Proof/Machine/Dispatch.lean ====
section
/-! DEFINITION. One arm per command: the ENGINE's step for a legal command word (R232). -/

namespace Sys2Proof.Machine

/-- The effect of a command, its completion included, as one atomic step (R232). -/
def exec (i : Instr) (s : State) : Host.Outcome State Fault Refusal :=
  match i with
  | .crc init => Sys2Proof.Machine.execCrc init s
  | .tcchk => Sys2Proof.Machine.execTcchk s
  | .enc => Sys2Proof.Machine.execEnc s
  | .dec => Sys2Proof.Machine.execDec s

end Sys2Proof.Machine
end

