-- ==== Sys2Proof/Machine/Engine.lean ====
section
/-! DEFINITION. The ENGINE agent (R14): it executes the latched command word, or ends it as illegal (R94, R232). -/

namespace Sys2Proof.Machine

/-- An illegal command word (R94, R196): ILLEGAL_COMMAND and no other effect. -/
def execIllegal (s : State) : Host.Outcome State Fault Refusal := raise .illegalCommand s

/-- The ENGINE's step (R232): it executes `decode(x[CMD])`. -/
def engineStep (s : State) : Host.Outcome State Fault Refusal :=
  match decode s.cmd with
  | .command i => exec i s
  | .illegal => execIllegal s

/-- The ENGINE's turn (R231): it has a step exactly when BUSY = 1; else nothing happens. -/
def engineTurn (s : State) : Host.Outcome State Fault Refusal :=
  if s.status.busy then engineStep s else .next s

end Sys2Proof.Machine
end

