-- ==== Sys2Proof/Machine/Step.lean ====
section
/-! DEFINITION. One step of the machine: the next turn of the total order (R74), and how a command word is placed where
the next step runs it. -/

namespace Sys2Proof.Machine

/-- One step: the first turn of the agenda is taken. With no turn left the ENGINE has its turn, so a pending command is
run in the end (R240's weak fairness; log entry 5), and an idle HCF stays as it is. -/
def step (s : State) : Host.Outcome State Fault Refusal :=
  match s.agenda with
  | [] => engineTurn s
  | .engine :: rest => engineTurn { s with agenda := rest }
  | .host acc :: rest => hostAccess acc { s with agenda := rest }
  | .reset :: rest => .next { s with agenda := rest }.applyReset

/-- `s` with the command word `w` pending and the ENGINE's turn next: an accepted CMD write (R23, R43). The HCF fetches
no instructions (R45); CMD is where a command word is found (log entry 7). -/
def State.withFetchWord (s : State) (_nbits w : Nat) : State :=
  { s.acceptCommand (BitVec.ofNat 32 w) with agenda := .engine :: s.agenda }

end Sys2Proof.Machine
end

