-- ==== Sys2Proof/Machine/Chunk.lean ====
section
/-! DEFINITION. The chunk as a value (R154) with the source's operations on it (R130, R155, R162 to R167), apart from the
registers and the buffer. The host procedures use it, and ENC and DEC are stated to agree with it. -/

namespace Sys2Proof.Machine

/-- The error kinds of the host software: the source's kinds (R190, R198, R266), and what the host itself refuses. -/
inductive HostError where
  | invalidTypeCode
  | truncatedInput
  /-- R194: `expected` is the declared checksum, `got` the recomputed one. -/
  | checksumMismatch (expected got : Word)
  | badSignature
  | invalidUtf8
  | notFound
  /-- The record does not fit the HCF's buffer (R265, D40, U10). -/
  | capacity
  /-- The host was asked for spans that the procedure does not admit (R251). -/
  | placement
  /-- A host access met a bus error (R69), which a host with legal parameters never causes here. -/
  | bus
  /-- The HCF reported a code that has no source kind: the host gave it bad operands (R266). -/
  | hcfOnly (code : ErrCode)
deriving DecidableEq, Repr

/-- A chunk `(N, t, d, k)` (R154). Equality of chunks is equality of the four components. -/
structure Chunk where
  length : Word
  typeCode : List Byte
  data : List Byte
  checksum : Word
deriving DecidableEq, Repr

namespace Chunk

/-- What "must hold for every live Chunk" (R154). -/
def valid (c : Chunk) : Bool :=
  c.length.toNat == c.data.length && allAlpha c.typeCode && c.checksum == crc32 (c.typeCode ++ c.data)

/-- `Chunk.new(type_code, data)` (R155); bytes that are no type code are refused (R157). DESIGN CHOICE (log entry 14): for
data of 2^32 bytes or more, on which the spec states no outcome, the length is taken modulo 2^32. -/
def new (t d : List Byte) : Except HostError Chunk :=
  if allAlpha t then
    .ok { length := BitVec.ofNat 32 d.length, typeCode := t, data := d, checksum := crc32 (t ++ d) }
  else .error .invalidTypeCode

/-- `encode()` (R155): the chunk's record (R150). -/
def encode (c : Chunk) : List Byte := recordBytes c.length c.typeCode c.data c.checksum

/-- `Chunk.decode(bytes)` by its five steps (R163 to R166); bytes after the record are not judged (R167). -/
def decode (bs : List Byte) : Except HostError Chunk :=
  if bs.length < 4 then .error .truncatedInput
  else
    let n := be32 (bs.take 4)
    if bs.length < 8 then .error .truncatedInput
    else
      let t := (bs.drop 4).take 4
      if !allAlpha t then .error .invalidTypeCode
      else if bs.length < 8 + n.toNat then .error .truncatedInput
      else
        let d := (bs.drop 8).take n.toNat
        if bs.length < 12 + n.toNat then .error .truncatedInput
        else
          let kd := be32 ((bs.drop (8 + n.toNat)).take 4)
          let k := crc32 (t ++ d)
          if k ≠ kd then .error (.checksumMismatch kd k)
          else .ok { length := n, typeCode := t, data := d, checksum := kd }

end Chunk
end Sys2Proof.Machine
end

