-- ==== Sys2Proof/Machine/HostAsm.lean ====
section
/-! DEFINITION. The host's access statements, command mnemonics and pseudo-instructions (30_encoding.md R97 to R99) as the
turns they stand for, and running a list of turns. Not hardware: it is the notation a host program is written in. -/

namespace Sys2Proof.Machine

/-- A host access statement (R97). -/
inductive Stmt where
  | wr (r : Reg) (v : Word)
  | rd (r : Reg)
  | wb (a : Nat) (b : Byte)
  | ww (a : Nat) (v : Word)
  | rb (a : Nat)
  | rw (a : Nat)
deriving DecidableEq, Repr

/-- The bus access of a statement (R97, last column). -/
def Stmt.access (c : Config) : Stmt → Access
  | .wr r v => .write 32 (c.regBase + r.offset) v
  | .rd r => .read 32 (c.regBase + r.offset)
  | .wb a b => .write 8 (c.bufBase + a) (b.setWidth 32)
  | .ww a v => .write 32 (c.bufBase + a) v
  | .rb a => .read 8 (c.bufBase + a)
  | .rw a => .read 32 (c.bufBase + a)

/-- Statements as turns of the HOST, in program order (R74). -/
def turns (c : Config) (p : List Stmt) : List Turn := p.map (fun st => Turn.host (st.access c))

namespace Asm

/-- `crc` (R98). -/
def crc : Stmt := .wr .cmd 0x00000001#32

/-- `crc.init` (R98). -/
def crcInit : Stmt := .wr .cmd 0x00000101#32

/-- `tcchk` (R98). -/
def tcchk : Stmt := .wr .cmd 0x00000002#32

/-- `enc` (R98). -/
def enc : Stmt := .wr .cmd 0x00000003#32

/-- `dec` (R98). -/
def dec : Stmt := .wr .cmd 0x00000004#32

/-- `wbytes a, b0, b1, ...` (R99); `wstr` is the same with the ASCII bytes of its text. -/
def wbytes : Nat → List Byte → List Stmt
  | _, [] => []
  | a, b :: bs => .wb a b :: wbytes (a + 1) bs

/-- `poll` (R99): `k` STATUS reads before the ENGINE's turn, then the one that sees BUSY = 0. Any `k` may occur (R240). -/
def poll (c : Config) (k : Nat) : List Turn :=
  turns c (List.replicate k (.rd .status)) ++ .engine :: turns c [.rd .status]

/-- A command launched after its operand writes, then polled. -/
def launch (c : Config) (k : Nat) (operands : List Stmt) (command : Stmt) : List Turn :=
  turns c (operands ++ [command]) ++ poll c k

/-- `crc32 s, n` (R99). -/
def crc32 (c : Config) (k : Nat) (s n : Word) : List Turn := launch c k [.wr .src s, .wr .len n] crcInit

/-- `crc32.cont s, n` (R99). -/
def crc32Cont (c : Config) (k : Nat) (s n : Word) : List Turn := launch c k [.wr .src s, .wr .len n] crc

/-- `tc t` (R99). -/
def tc (c : Config) (k : Nat) (t : Word) : List Turn := launch c k [.wr .typ t] tcchk

/-- `encode t, s, n, d` (R99). -/
def encode (c : Config) (k : Nat) (t s n d : Word) : List Turn :=
  launch c k [.wr .typ t, .wr .src s, .wr .len n, .wr .dst d] enc

/-- `decode s, n, d` (R99). -/
def decode (c : Config) (k : Nat) (s n d : Word) : List Turn :=
  launch c k [.wr .src s, .wr .len n, .wr .dst d] dec

end Asm

/-- Run a list of turns from `s`, one machine step a turn, stopping at the first fault. -/
def runTurns : List Turn → State → Host.Outcome State Fault Refusal
  | [], s => .next s
  | t :: ts, s =>
    match step { s with agenda := [t] } with
    | .next s' => runTurns ts s'
    | .fault f => .fault f
    | .refused r => .refused r

end Sys2Proof.Machine
end

