-- ==== Sys2Proof/Machine/HostSoftware.lean ====
section
/-! DEFINITION. The host procedures of 80_host_interface.md: what the source fixes about the software around the framer
(R5). They are not hardware and no step runs them; they are here so that a host program can be modelled. -/

namespace Sys2Proof.Machine

/-- The source kind of an HCF error code (R266); `s` is the state after the command. -/
def hostErrorOf (s : State) : ErrCode → Option HostError
  | .none => none
  | .invalidTypeCode => some .invalidTypeCode
  | .truncatedInput => some .truncatedInput
  | .checksumMismatch => some (.checksumMismatch s.crcDecl s.crcOut)
  | .range => some (.hcfOnly .range)
  | .overlap => some (.hcfOnly .overlap)
  | .illegalCommand => some (.hcfOnly .illegalCommand)

/-- Run a host procedure's turns on an idle HCF and take its result in the state they leave; that state goes on to the
host's next procedure (R264). -/
def runProcedure {α : Type} (ts : List Turn) (result : State → Except HostError α) (s : State) :
    Except HostError α × State :=
  match runTurns ts s with
  | .next s' => (result s', s')
  | .fault _ => (.error .bus, s)
  | .refused _ => (.error .bus, s)

/-- What `chunk_new_encode` gives (R251): the record, and the chunk's length and checksum. -/
structure Encoded where
  record : List Byte
  length : Word
  checksum : Word
deriving DecidableEq, Repr

/-- R251's condition on the spans: both are inside the buffer, and the record span does not meet the data span. -/
def newEncodePlaced (c : Config) (src n dst : Nat) : Bool :=
  spanOk c src n && spanOk c dst (n + 12) && !overlap src n dst (n + 12)

/-- R251, the turns: write the data at `src`, then encode it to `dst`. -/
def chunkNewEncodeTurns (c : Config) (k : Nat) (t d : List Byte) (src dst : Nat) : List Turn :=
  turns c (Asm.wbytes src d) ++
    Asm.encode c k (be32 t) (BitVec.ofNat 32 src) (BitVec.ofNat 32 d.length) (BitVec.ofNat 32 dst)

/-- R251, the result in the state after the turns: the record, the length and the checksum, or the error. -/
def chunkNewEncodeResult (s : State) (dst : Nat) : Except HostError Encoded :=
  match hostErrorOf s s.status.errcode with
  | none => .ok { record := s.memRead dst s.rlen.toNat, length := s.dlen, checksum := s.crcOut }
  | some e => .error e

/-- R251 run on an idle HCF with the data at `src` and the record at `dst`. `k` is how many STATUS reads see BUSY = 1. A
byte sequence of another length than 4 is no type code (R130) and has no packed form for TYPE. -/
def chunkNewEncodeAt (k : Nat) (t d : List Byte) (src dst : Nat) (s : State) : Except HostError Encoded × State :=
  if t.length ≠ 4 then (.error .invalidTypeCode, s)
  else if !newEncodePlaced s.cfg src d.length dst then (.error .placement, s)
  else runProcedure (chunkNewEncodeTurns s.cfg k t d src dst) (fun s' => chunkNewEncodeResult s' dst) s

/-- R251 with the data at 0 and the record right after it (log entry 9). Data and record that do not fit the buffer
together are refused (R265). -/
def chunkNewEncodeOn (k : Nat) (t d : List Byte) (s : State) : Except HostError Encoded × State :=
  if s.cfg.bufBytes < 2 * d.length + 12 then (.error .capacity, s)
  else chunkNewEncodeAt k t d 0 d.length s

/-- R252, the turns: write the record at `src`, then decode it to `dst`. -/
def chunkDecodeTurns (c : Config) (k : Nat) (b : List Byte) (src dst : Nat) : List Turn :=
  turns c (Asm.wbytes src b) ++
    Asm.decode c k (BitVec.ofNat 32 src) (BitVec.ofNat 32 b.length) (BitVec.ofNat 32 dst)

/-- R252, the result in the state after the turns: the chunk, or the error. -/
def chunkDecodeResult (s : State) (dst : Nat) : Except HostError Chunk :=
  match hostErrorOf s s.status.errcode with
  | none =>
    .ok { length := s.dlen, typeCode := tcBytes s.typ, data := s.memRead dst s.dlen.toNat, checksum := s.crcDecl }
  | some e => .error e

/-- How many of the bytes `b` its record takes: `N + 12`, or all of them when they are fewer. -/
def recordExtent (b : List Byte) : Nat := min b.length (12 + (be32 (b.take 4)).toNat)

/-- R252 run on an idle HCF: the bytes at 0 and the data right after the record (log entry 9). Only a record that does not
fit the buffer is refused (R265); of bytes that run on past the buffer's end, which are not judged (R167), those that
fit are written. Every other outcome is DEC's own. -/
def chunkDecodeOn (k : Nat) (b : List Byte) (s : State) : Except HostError Chunk × State :=
  if s.cfg.bufBytes < recordExtent b then (.error .capacity, s)
  else
    runProcedure (chunkDecodeTurns s.cfg k (b.take s.cfg.bufBytes) 0 (recordExtent b))
      (fun s' => chunkDecodeResult s' (recordExtent b)) s

/-- The fixed signature (R253). -/
def signature : List Byte := [137#8, 80#8, 78#8, 71#8, 13#8, 10#8, 26#8, 10#8]

/-- The container: the signature and the chunks in order (R259). -/
structure Container where
  signature : List Byte
  chunks : List Chunk
deriving DecidableEq, Repr

/-- A chunk in the host's hands, with the record that its DEC verified if the host has kept it (R258). -/
structure Held where
  chunk : Chunk
  record : Option (List Byte)
deriving DecidableEq, Repr

/-- A chunk's record (R258): the one kept, or an ENC's (R251). -/
def Held.recordOn (k : Nat) (h : Held) (s : State) : Except HostError (List Byte) × State :=
  match h.record with
  | some r => (.ok r, s)
  | none =>
    let e := chunkNewEncodeOn k h.chunk.typeCode h.chunk.data s
    (e.1.map Encoded.record, e.2)

namespace Container

/-- The chunk loop of R255, from the bytes after the cursor. `dec` decodes one record on its exact span; `x` is what it
carries from one record to the next. Each round takes at least 12 bytes, so `fuel`, the number of bytes, is never the
reason to stop. -/
def readChunks {σ α : Type} (bufBytes : Nat) (dec : List Byte → σ → Except HostError α × σ) :
    Nat → List Byte → σ → Except HostError (List α) × σ
  | _, [], x => (.ok [], x)
  | 0, _ :: _, x => (.error .truncatedInput, x)
  | fuel + 1, b :: rest, x =>
    let bs := b :: rest
    if bs.length < 4 then (.error .truncatedInput, x)
    else
      let n := (be32 (bs.take 4)).toNat
      if bs.length < 12 + n then (.error .truncatedInput, x)
      else if bufBytes < 12 + n then (.error .capacity, x)
      else
        match dec (bs.take (12 + n)) x with
        | (.error e, y) => (.error e, y)
        | (.ok c, y) =>
          let r := readChunks bufBytes dec fuel (bs.drop (12 + n)) y
          (r.1.map (c :: ·), r.2)

/-- Container decode (R254 to R257): the signature, then the chunk loop. -/
def decodeWith {σ α : Type} (bufBytes : Nat) (dec : List Byte → σ → Except HostError α × σ) (bs : List Byte) (x : σ) :
    Except HostError (List α) × σ :=
  if bs.length < 8 then (.error .truncatedInput, x)
  else if bs.take 8 ≠ Machine.signature then (.error .badSignature, x)
  else readChunks bufBytes dec bs.length (bs.drop 8) x

/-- `from_chunks(chunks)` (R259). The signature is the constant, which is also the value that a decode has verified. -/
def fromChunks (cs : List Chunk) : Container := { signature := Machine.signature, chunks := cs }

/-- Container decode with each record decoded as a value. -/
def decode (bufBytes : Nat) (bs : List Byte) : Except HostError Container :=
  (decodeWith bufBytes (fun b u => (Chunk.decode b, u)) bs ()).1.map fromChunks

/-- Container decode with each record decoded by the HCF, one after the other (R255), and the HCF after it. -/
def decodeOn (k : Nat) (bs : List Byte) (s : State) : Except HostError Container × State :=
  let r := decodeWith s.cfg.bufBytes (chunkDecodeOn k) bs s
  (r.1.map fromChunks, r.2)

/-- `decodeOn` by a host that keeps each record its DEC verified (R258). -/
def decodeHeldOn (k : Nat) (bs : List Byte) (s : State) : Except HostError (List Held) × State :=
  decodeWith s.cfg.bufBytes
    (fun b s =>
      let r := chunkDecodeOn k b s
      (r.1.map (fun c => { chunk := c, record := some b }), r.2)) bs s

/-- Container encode on values (R258). -/
def encode (p : Container) : List Byte := p.signature ++ (p.chunks.map Chunk.encode).flatten

/-- The records of R258 in order, joined. -/
def recordsOn (k : Nat) : List Held → State → Except HostError (List Byte) × State
  | [], s => (.ok [], s)
  | h :: hs, s =>
    match h.recordOn k s with
    | (.error e, s') => (.error e, s')
    | (.ok r, s') =>
      let rs := recordsOn k hs s'
      (rs.1.map (r ++ ·), rs.2)

/-- Container encode with each record kept or from an ENC (R258), and the HCF after it. -/
def encodeHeldOn (k : Nat) (sig : List Byte) (hs : List Held) (s : State) : Except HostError (List Byte) × State :=
  let rs := recordsOn k hs s
  (rs.1.map (sig ++ ·), rs.2)

/-- Container encode with every record from an ENC (R251, R258). -/
def encodeOn (k : Nat) (p : Container) (s : State) : Except HostError (List Byte) × State :=
  encodeHeldOn k p.signature (p.chunks.map (fun c => { chunk := c, record := none })) s

/-- `find(s)` (R260): the first chunk whose type code's text equals `t`, with its index; `t` is the string's bytes
(R263). -/
def find (p : Container) (t : List Byte) : Option (Nat × Chunk) :=
  match p.chunks.findIdx? (fun c => c.typeCode == t) with
  | none => none
  | some i => (p.chunks[i]?).map (fun c => (i, c))

/-- `remove(s)` (R260): the chunk removed and the container left, or NotFound. -/
def remove (p : Container) (t : List Byte) : Except HostError (Chunk × Container) :=
  match p.find t with
  | none => .error .notFound
  | some (i, c) => .ok (c, { p with chunks := p.chunks.eraseIdx i })

/-- `append(chunk)` (R261): always succeeds, duplicates allowed. -/
def append (p : Container) (c : Chunk) : Container := { p with chunks := p.chunks ++ [c] }

end Container

/-- Parse a type code from a string's bytes (R263). -/
def parseTypeCode (t : List Byte) : Except HostError (List Byte) :=
  if allAlpha t then .ok t else .error .invalidTypeCode

/-- A UTF-8 continuation byte (R262, RFC 3629). -/
def utf8Cont (b : Byte) : Bool := 0x80 ≤ b.toNat && b.toNat ≤ 0xBF

/-- The code points of a UTF-8 byte sequence, or none where it is not valid: overlong forms, surrogates and code points
above 0x10FFFF are rejected (R262, RFC 3629). -/
def utf8Decode : List Byte → Option (List Nat)
  | [] => some []
  | b0 :: r0 =>
    let x := b0.toNat
    if x < 0x80 then (utf8Decode r0).map (x :: ·)
    else
      match r0 with
      | [] => none
      | b1 :: r1 =>
        let y := b1.toNat % 64
        if 0xC2 ≤ x ∧ x ≤ 0xDF then
          if utf8Cont b1 then (utf8Decode r1).map ((x % 32 * 64 + y) :: ·) else none
        else
          match r1 with
          | [] => none
          | b2 :: r2 =>
            let z := b2.toNat % 64
            if 0xE0 ≤ x ∧ x ≤ 0xEF then
              let v := x % 16 * 4096 + y * 64 + z
              if utf8Cont b1 ∧ utf8Cont b2 ∧ 0x800 ≤ v ∧ ¬(0xD800 ≤ v ∧ v ≤ 0xDFFF) then
                (utf8Decode r2).map (v :: ·)
              else none
            else
              match r2 with
              | [] => none
              | b3 :: r3 =>
                let v := x % 8 * 262144 + y * 4096 + z * 64 + b3.toNat % 64
                if 0xF0 ≤ x ∧ x ≤ 0xF4 ∧ utf8Cont b1 ∧ utf8Cont b2 ∧ utf8Cont b3 ∧ 0x10000 ≤ v ∧ v ≤ 0x10FFFF then
                  (utf8Decode r3).map (v :: ·)
                else none

/-- `data_as_text()` (R262), as code points. -/
def dataAsText (c : Chunk) : Except HostError (List Nat) :=
  match utf8Decode c.data with
  | some cps => .ok cps
  | none => .error .invalidUtf8

end Sys2Proof.Machine
end

