-- ==== Sys2Proof/Safety.lean ====
section
/-! DEFINITION. The terms the statements use: how a command completes, what every step keeps, and that a run is safe. -/

namespace Sys2Proof

open Sys2Proof.Machine

/-- TCFLAGS holds 0 or a flag word (R38, R137): bits 31:6 are 0, bit 5 equals bit 3, and without ALPHA nothing is set. -/
def tcflagsOk (w : Word) : Prop :=
  w.extractLsb' 6 26 = 0#26 ∧ w.getLsbD 5 = w.getLsbD 3 ∧ (w.getLsbD 0 = false → w = 0#32)

/-- The invariant of the machine, kept by every step from every state that has it. -/
structure StateInv (s : State) : Prop where
  /-- The parameters are legal (R7, R63). -/
  cfgWf : s.cfg.wf = true
  /-- The memory keeps its canonical form. -/
  memWf : Memory.wf s.mem
  /-- Only the `BUF_BYTES` bytes of the buffer are ever written (R41). -/
  memInside : ∀ cell ∈ s.mem, cell.1 < s.cfg.bufBytes
  /-- ERR = 1 exactly when ERRCODE is not 0 (R25). -/
  errIff : s.status.err = (s.status.errcode != .none)
  /-- While a command is pending, ERRCODE is 0 (R23, R27). -/
  busyClear : s.status.busy = true → s.status.errcode = .none
  /-- TCFLAGS holds 0 or a flag word (R38). -/
  tcflagsWf : tcflagsOk s.tcflags
  /-- DLEN and RLEN are those of one record that fits the buffer, or of none (R36, R37). -/
  lengths : (s.dlen = 0#32 ∧ s.rlen = 0#32) ∨
    (s.rlen.toNat = s.dlen.toNat + 12 ∧ s.rlen.toNat ≤ s.cfg.bufBytes)

/-- From `s`, command `i` completes with error code `code` and leaves `t`, but for completion's own writes (R199): BUSY is
0, ERR and ERRCODE tell `code`, OVR is as in `t`. The model's draw number is left open (log entry 2). -/
def CompletesWith (i : Instr) (s : State) (code : ErrCode) (t : State) : Prop :=
  ∃ n, exec i s = .next { t with
    status := { t.status with busy := false, err := code != .none, errcode := code }
    draws := n }

/-- `bs` are the bytes that a chain of CRC commands ending in `s` has checksummed (R121): the first command with INIT = 1,
each later one with INIT = 0, and between them anything that writes neither CRC register. -/
inductive CrcChain : List Byte → State → Prop where
  | start {s t : State} : exec (.crc true) s = .next t → t.status.errcode = .none →
      CrcChain (s.memRead s.src.toNat s.len.toNat) t
  | between {bs : List Byte} {s t : State} : CrcChain bs s → t.crcAcc = s.crcAcc → t.crcOut = s.crcOut →
      CrcChain bs t
  | continue {bs : List Byte} {s t : State} : CrcChain bs s → exec (.crc false) s = .next t →
      t.status.errcode = .none → CrcChain (bs ++ s.memRead s.src.toNat s.len.toNat) t

/-- A host access the HCF performs (R61, R62, R68, R69): 32 bits wide and 4-aligned in the register window, or inside the
buffer and either 8 bits wide or 32 bits wide and 4-aligned. -/
def accessLegal (c : Config) (bits addr : Nat) : Prop :=
  (c.regBase ≤ addr ∧ addr < c.regBase + 64 ∧ bits = 32 ∧ (addr - c.regBase) % 4 = 0) ∨
  (c.bufBase ≤ addr ∧ addr + bits / 8 ≤ c.bufBase + c.bufBytes ∧
    (bits = 8 ∨ bits = 32 ∧ (addr - c.bufBase) % 4 = 0))

/-- The next turn is the ENGINE's: its own turn comes first, or no turn is left (log entry 5). -/
def engineNext (s : State) : Prop := s.agenda = [] ∨ s.agenda.head? = some .engine

/-- The state in which the HOST's next access is `acc`, with the turns of `s` after it. -/
def hostNext (s : State) (acc : Access) : State := { s with agenda := .host acc :: s.agenda }

/-- A 32-bit host read of register slot `r`. -/
def readSlot (c : Config) (r : Reg) : Access := .read 32 (c.regBase + r.offset)

/-- A 32-bit host write of `v` to register slot `r`. -/
def writeSlot (c : Config) (r : Reg) (v : Word) : Access := .write 32 (c.regBase + r.offset) v

end Sys2Proof
end

