-- ==== Sys2Proof/Certificates/Slice0/Obligations.lean ====
section
/-! DEFINITION. The statements for the provers, from the spec's numbered rules, in the order of its files. Where a statement
leaves the model's own draw number open it says `∃ n` (log entry 2); no statement rests on the value of a free draw. -/

open Sys2Proof Sys2Proof.Machine

/-- R11: `be32` is the weighted sum of its bytes, `to_be32` lists them, and each inverts the other. -/
def Obligations.BigEndianConversion : Prop :=
  (∀ b0 b1 b2 b3 : Byte, (be32 [b0, b1, b2, b3]).toNat =
    b0.toNat * 2 ^ 24 + b1.toNat * 2 ^ 16 + b2.toNat * 2 ^ 8 + b3.toNat) ∧
  (∀ v : Word, toBe32 v = [v.extractLsb' 24 8, v.extractLsb' 16 8, v.extractLsb' 8 8, v.extractLsb' 0 8]) ∧
  (∀ v : Word, be32 (toBe32 v) = v) ∧
  (∀ bs : List Byte, bs.length = 4 → toBe32 (be32 bs) = bs)

/-- R13: `span_ok` is an unbounded comparison, `overlap` says that the two byte ranges share a byte, and `tc_bytes` is
`to_be32`. -/
def Obligations.SpanAndOverlapTests : Prop :=
  (∀ (c : Config) (a n : Nat), spanOk c a n = true ↔ a + n ≤ c.bufBytes) ∧
  (∀ a m b n : Nat, overlap a m b n = true ↔ m > 0 ∧ n > 0 ∧ a < b + n ∧ b < a + m) ∧
  (∀ a m b n : Nat, overlap a m b n = true ↔ ∃ x, (a ≤ x ∧ x < a + m) ∧ (b ≤ x ∧ x < b + n)) ∧
  (∀ w : Word, tcBytes w = toBe32 w)

/-- R98 and the word vectors W1 to W10 of 95_test_vectors.md: what single command words decode to. -/
def Obligations.CommandWordsDecode : Prop :=
  decode 0x00000001#32 = .command (.crc false) ∧ decode 0x00000101#32 = .command (.crc true) ∧
  decode 0x00000002#32 = .command .tcchk ∧ decode 0x00000003#32 = .command .enc ∧
  decode 0x00000004#32 = .command .dec ∧
  (∀ w ∈ [0x00000000#32, 0x00000005#32, 0x0000000F#32, 0x00000010#32, 0x00000102#32, 0x00000201#32, 0x80000001#32,
    0x00000100#32, 0x00000103#32, 0xFFFFFFFF#32], decode w = .illegal)

/-- R91, R92: exactly five words are legal, they are the words whose reserved fields are 0, whose OP is 1 to 4 and whose I
bit is set with CRC alone, and a legal word's fields name its command. -/
def Obligations.DecodeByFields : Prop :=
  (∀ w : Word, decode w ≠ .illegal ↔
    w ∈ [0x00000001#32, 0x00000101#32, 0x00000002#32, 0x00000003#32, 0x00000004#32]) ∧
  (∀ w : Word, decode w = .illegal ↔
    w.extractLsb' 4 4 ≠ 0#4 ∨ w.extractLsb' 9 23 ≠ 0#23 ∨ w.extractLsb' 0 4 = 0#4 ∨ 4 < (w.extractLsb' 0 4).toNat ∨
      (w.getLsbD 8 = true ∧ w.extractLsb' 0 4 ≠ 1#4)) ∧
  (∀ (w : Word) (i : Instr), decode w = .command i →
    (w.extractLsb' 0 4 = 1#4 ↔ i = .crc (w.getLsbD 8)) ∧ (w.extractLsb' 0 4 = 2#4 ↔ i = .tcchk) ∧
    (w.extractLsb' 0 4 = 3#4 ↔ i = .enc) ∧ (w.extractLsb' 0 4 = 4#4 ↔ i = .dec))

/-- Decoding and encoding agree in both directions, for every command and every word. -/
def Obligations.EncodeDecodeAgree : Prop :=
  (∀ i : Instr, i.wf = true → decode (encode i) = .command i) ∧
  (∀ (w : Word) (i : Instr), decode w = .command i → encode i = w)

/-- R220: a reset, in any state and with a command pending or not (R222), gives every register its reset value and leaves no
command pending. Two clauses are the model's choice: that no buffer byte counts as written, its form of R221's unspecified
contents (log entry 2), and that the turns still to come are kept (log entry 11). -/
def Obligations.ResetValues : Prop :=
  ∀ (s : State) (rest : List Turn), s.agenda = .reset :: rest →
    ∃ t, step s = .next t ∧ t.cfg = s.cfg ∧ t.agenda = rest ∧
      t.readReg .id = 0x48504346#32 ∧ t.readReg .cmd = 0#32 ∧ t.readReg .status = 0#32 ∧ t.readReg .src = 0#32 ∧
      t.readReg .len = 0#32 ∧ t.readReg .dst = 0#32 ∧ t.readReg .typ = 0#32 ∧
      t.readReg .crcAcc = 0xFFFFFFFF#32 ∧ t.readReg .crcOut = 0#32 ∧ t.readReg .crcDecl = 0#32 ∧
      t.readReg .dlen = 0#32 ∧ t.readReg .rlen = 0#32 ∧ t.readReg .tcflags = 0#32 ∧
      t.readReg .bufsize = BitVec.ofNat 32 s.cfg.bufBytes ∧ t.readReg .rsv38 = 0#32 ∧ t.readReg .rsv3c = 0#32 ∧
      t.status = { busy := false, err := false, ovr := false, errcode := .none } ∧ ∀ a, t.mem.get? a = none

/-- The invariant holds right after reset, for every legal choice of the parameters, and in `State.reset`. -/
def Obligations.InvariantAtReset : Prop :=
  (∀ c : Config, c.wf = true → StateInv (State.resetOf c)) ∧ StateInv State.reset

/-- Every step that answers a next state keeps the invariant: legal parameters, a canonical memory inside the buffer, ERR
told by ERRCODE, ERRCODE 0 while busy, a legal TCFLAGS, and lengths of a record that fits the buffer. -/
def Obligations.InvariantKeptByStep : Prop :=
  ∀ s t : State, StateInv s → step s = .next t → StateInv t

/-- R22, R39: no step changes the parameters, ID or BUFSIZE, and BUFSIZE reads BUF_BYTES. -/
def Obligations.ConstantsKept : Prop :=
  ∀ s : State, s.readReg .id = 0x48504346#32 ∧
    (s.cfg.sizeOk = true → (s.readReg .bufsize).toNat = s.cfg.bufBytes) ∧
    ∀ t, step s = .next t → t.cfg = s.cfg ∧ t.readReg .id = s.readReg .id ∧ t.readReg .bufsize = s.readReg .bufsize

/-- R21: register accesses while BUSY = 0. A read returns the register and changes nothing of the HCF; a write to an RO or
RAZ/WI slot is ignored; a write to an RW register stores the full word and changes nothing else. -/
def Obligations.RegisterAccessWhileIdle : Prop :=
  ∀ (s : State) (r : Reg) (v : Word), s.cfg.wf = true → s.status.busy = false →
    (∃ n, step (hostNext s (readSlot s.cfg r)) = .next { s with resp := some (.word (s.readReg r)), draws := n }) ∧
    (r.access = .razwi → s.readReg r = 0#32) ∧
    (r.access = .ro ∨ r.access = .razwi →
      step (hostNext s (writeSlot s.cfg r v)) = .next { s with resp := some .written }) ∧
    (r.access = .rw → ∃ t, step (hostNext s (writeSlot s.cfg r v)) = .next t ∧ t.readReg r = v ∧
      (∀ q, q ≠ r → t.readReg q = s.readReg q) ∧ t.status = s.status ∧ t.mem = s.mem ∧ t.cfg = s.cfg ∧
      t.agenda = s.agenda)

/-- R23: a CMD write while BUSY = 0 is accepted, whatever the word: CMD takes it and STATUS becomes BUSY alone; the
ENGINE's next turn executes that word; CMD's reset value is 0. -/
def Obligations.CommandWriteAccepted : Prop :=
  (∀ (s : State) (w : Word), s.cfg.wf = true → s.status.busy = false →
    ∃ t, step (hostNext s (writeSlot s.cfg .cmd w)) = .next t ∧
      t = { s with
        cmd := w
        status := { busy := true, err := false, ovr := false, errcode := .none }
        resp := some .written } ∧
      t.readReg .cmd = w ∧ (t.readReg .status) = 1#32 ∧
      (engineNext t → step t = (match decode w with
        | .command i => exec i { t with agenda := t.agenda.tail }
        | .illegal => execIllegal { t with agenda := t.agenda.tail }))) ∧
  ∀ c, (State.resetOf c).cmd = 0#32

/-- R27, R28, R190: STATUS as a word, and the numbers of the error codes. -/
def Obligations.StatusWordFields : Prop :=
  ∀ t : Status, t.word.getLsbD 0 = t.busy ∧ t.word.getLsbD 1 = t.err ∧ t.word.getLsbD 2 = t.ovr ∧
    t.word.getLsbD 3 = false ∧ t.word.extractLsb' 4 4 = t.errcode.num ∧ t.word.extractLsb' 8 24 = 0#24 ∧
    t.errcode.num.toNat ≤ 6 ∧
    ErrCode.none.num = 0#4 ∧ ErrCode.invalidTypeCode.num = 1#4 ∧ ErrCode.truncatedInput.num = 2#4 ∧
    ErrCode.checksumMismatch.num = 3#4 ∧ ErrCode.range.num = 4#4 ∧ ErrCode.overlap.num = 5#4 ∧
    ErrCode.illegalCommand.num = 6#4

/-- R26: OVR is set by a host write while BUSY = 1, which is ignored, and by nothing else; it is cleared by an accepted CMD
write or a reset and by nothing else, a command's completion included; reset leaves it 0. -/
def Obligations.OvrIsSticky : Prop :=
  ∀ s t : State, step s = .next t →
    (s.status.ovr = false → t.status.ovr = true →
      s.status.busy = true ∧ ∃ bits addr v rest, s.agenda = .host (.write bits addr v) :: rest) ∧
    (s.status.ovr = true → t.status.ovr = false →
      (s.status.busy = false ∧ ∃ w rest, s.agenda = .host (writeSlot s.cfg .cmd w) :: rest) ∨
      ∃ rest, s.agenda = .reset :: rest) ∧
    (∀ bits addr v rest, s.status.busy = true → s.agenda = .host (.write bits addr v) :: rest →
      t = { s with status := { s.status with ovr := true }, agenda := rest, resp := some .written }) ∧
    (∀ w rest, s.status.busy = false → s.agenda = .host (writeSlot s.cfg .cmd w) :: rest → t.status.ovr = false) ∧
    (∀ rest, s.agenda = .reset :: rest → t.status.ovr = false)

/-- R233: a host write while BUSY = 1 changes no register and no buffer byte, starts no command, and sets OVR; a bus error
takes precedence. -/
def Obligations.WritesWhileBusyIgnored : Prop :=
  ∀ (s : State) (bits addr : Nat) (v : Word), s.cfg.wf = true → s.status.busy = true →
    (accessLegal s.cfg bits addr → step (hostNext s (.write bits addr v)) =
      .next { s with status := { s.status with ovr := true }, resp := some .written }) ∧
    (¬ accessLegal s.cfg bits addr → ∃ f, step (hostNext s (.write bits addr v)) = .fault f)

/-- R234: a host read while BUSY = 1 of STATUS, ID or BUFSIZE returns its current value; any other legal read returns some
value; no read has an effect on the pending command or on any register or buffer byte. -/
def Obligations.ReadsWhileBusy : Prop :=
  ∀ s : State, s.cfg.wf = true → s.status.busy = true →
    (∀ r ∈ [Reg.status, Reg.id, Reg.bufsize], ∃ n, step (hostNext s (readSlot s.cfg r)) =
      .next { s with resp := some (.word (s.readReg r)), draws := n }) ∧
    (∀ bits addr, accessLegal s.cfg bits addr → ∃ x n, step (hostNext s (.read bits addr)) =
      .next { s with resp := some x, draws := n })

/-- R68, R69: a host access is performed exactly when its width and alignment are supported and it lies in a window; any
other is a fault of the HOST, in either state of the HCF. -/
def Obligations.BusErrorsExactly : Prop :=
  ∀ (s : State) (acc : Access), s.cfg.wf = true →
    (accessLegal s.cfg acc.bits acc.addr → ∃ t, step (hostNext s acc) = .next t) ∧
    (¬ accessLegal s.cfg acc.bits acc.addr → ∃ f, step (hostNext s acc) = .fault f)

/-- R66, R67: host accesses to the buffer while BUSY = 0. A 32-bit access sees four bytes big-endian, an 8-bit access one
byte; a write changes those bytes and nothing else of the HCF. -/
def Obligations.BufferAccessWhileIdle : Prop :=
  ∀ (s : State) (a : Nat) (v : Word), s.cfg.wf = true → s.status.busy = false →
    (a < s.cfg.bufBytes →
      (∃ n, step (hostNext s (.read 8 (s.cfg.bufBase + a))) =
        .next { s with resp := some (.byte (s.readByte a)), draws := n }) ∧
      (∃ t, step (hostNext s (.write 8 (s.cfg.bufBase + a) v)) = .next t ∧
        { t with mem := s.mem } = { s with resp := some .written } ∧
        ∀ x, t.mem.get? x = if x = a then some (v.setWidth 8) else s.mem.get? x)) ∧
    (a % 4 = 0 → a + 4 ≤ s.cfg.bufBytes →
      (∃ n, step (hostNext s (.read 32 (s.cfg.bufBase + a))) =
        .next { s with resp := some (.word (be32 (s.memRead a 4))), draws := n }) ∧
      (∃ t, step (hostNext s (.write 32 (s.cfg.bufBase + a) v)) = .next t ∧
        { t with mem := s.mem } = { s with resp := some .written } ∧
        ∀ x, t.mem.get? x = if a ≤ x ∧ x < a + 4 then (toBe32 v)[x - a]? else s.mem.get? x))

/-- R73: a 32-bit write is seen by 8-bit reads byte by byte, and four 8-bit writes by a 32-bit read. -/
def Obligations.MixedWidthView : Prop :=
  ∀ (s : State) (a : Nat) (v : Word) (b0 b1 b2 b3 : Byte), s.cfg.wf = true → s.status.busy = false →
    a % 4 = 0 → a + 4 ≤ s.cfg.bufBytes →
    (∀ i < 4, ∃ t, runTurns (turns s.cfg [.ww a v, .rb (a + i)]) s = .next t ∧
      t.resp = some (.byte (v.extractLsb' (24 - 8 * i) 8))) ∧
    (∃ t, runTurns (turns s.cfg [.wb a b0, .wb (a + 1) b1, .wb (a + 2) b2, .wb (a + 3) b3, .rw a]) s = .next t ∧
      t.resp = some (.word (be32 [b0, b1, b2, b3])))

/-- R72, its memory part, and R12's `MemRead` and `MemWrite`: a byte is read as the last write left it, a span is read byte
by byte, a write sets its bytes and leaves every other byte alone, and a legal host read in either state of the HCF changes
nothing of it. -/
def Obligations.ReadReturnsLastWrite : Prop :=
  (∀ (s : State) (a : Nat) (b : Byte), s.mem.get? a = some b → s.readByte a = b) ∧
  (∀ (s : State) (a n : Nat), (s.memRead a n).length = n ∧ ∀ i < n, (s.memRead a n)[i]? = some (s.readByte (a + i))) ∧
  (∀ (s : State) (a : Nat) (bs : List Byte), (s.memWrite a bs).memRead a bs.length = bs ∧
    ∀ x, x < a ∨ a + bs.length ≤ x → (s.memWrite a bs).readByte x = s.readByte x) ∧
  (∀ (s : State) (bits addr : Nat), s.cfg.wf = true → accessLegal s.cfg bits addr →
    ∃ r n, step (hostNext s (.read bits addr)) = .next { s with resp := some r, draws := n })

/-- R115: the table form of the byte step, and so of every sequence, computes what the bit loop computes; and the
entries of the table that the spec lists. -/
def Obligations.CrcTableFormAgrees : Prop :=
  (∀ (c : Word) (b : Byte), crcUpdate c b = crcTable ((c ^^^ b.setWidth 32).setWidth 8) ^^^ (c >>> 8)) ∧
  (∀ (c : Word) (bs : List Byte), crcFeed c bs =
    bs.foldl (fun (c : Word) (b : Byte) => crcTable ((c ^^^ b.setWidth 32).setWidth 8) ^^^ (c >>> 8)) c) ∧
  (∀ n : Byte, crcTable n = crcUpdate 0#32 n) ∧
  crcTable 0#8 = 0x00000000#32 ∧ crcTable 1#8 = 0x77073096#32 ∧ crcTable 2#8 = 0xEE0E612C#32 ∧
  crcTable 8#8 = 0x0EDB8832#32 ∧ crcTable 16#8 = 0x1DB71064#32 ∧ crcTable 128#8 = 0xEDB88320#32 ∧
  crcTable 255#8 = 0x2D02EF8D#32

/-- R112 to R114 and the vectors C1, C6 and C9: the checksum function on fixed inputs. -/
def Obligations.CrcKnownValues : Prop :=
  crc32 [] = 0x00000000#32 ∧
  (∀ bs : List Byte, crc32 bs = crcFeed 0xFFFFFFFF#32 bs ^^^ 0xFFFFFFFF#32) ∧
  crc32 [0x31#8, 0x32#8, 0x33#8, 0x34#8, 0x35#8, 0x36#8, 0x37#8, 0x38#8, 0x39#8] = 0xCBF43926#32 ∧
  crc32 [0x52#8, 0x75#8, 0x53#8, 0x74#8] = 0xD484093C#32

/-- R120: the CRC command, in both forms and in every state: it completes, with RANGE when the span leaves the buffer and
with the checksum of the span otherwise, and changes nothing else. -/
def Obligations.CrcCommandResult : Prop :=
  ∀ (init : Bool) (s : State),
    (s.cfg.bufBytes < s.src.toNat + s.len.toNat → CompletesWith (.crc init) s .range s) ∧
    (s.src.toNat + s.len.toNat ≤ s.cfg.bufBytes → ∃ c,
      c = crcFeed (if init then 0xFFFFFFFF#32 else s.crcAcc) (s.memRead s.src.toNat s.len.toNat) ∧
      CompletesWith (.crc init) s .none { s with crcAcc := c, crcOut := c ^^^ 0xFFFFFFFF#32 })

/-- R117, R121: the chaining law, and what CRC_OUT and CRC_ACC hold after any chain of CRC commands, whatever happened to
the buffer and the operand registers between them. -/
def Obligations.CrcChaining : Prop :=
  (∀ (c : Word) (a b : List Byte), crcFeed c (a ++ b) = crcFeed (crcFeed c a) b) ∧
  ∀ (bs : List Byte) (t : State), CrcChain bs t →
    t.crcOut = crc32 bs ∧ t.crcAcc = crcFeed 0xFFFFFFFF#32 bs

/-- R226: right after reset CRC_ACC is the initial register, and then CRC with I = 0 is CRC with I = 1. -/
def Obligations.FirstCrcAfterReset : Prop :=
  (∀ c : Config, (State.resetOf c).crcAcc = 0xFFFFFFFF#32) ∧
  ∀ s : State, s.crcAcc = 0xFFFFFFFF#32 → exec (.crc false) s = exec (.crc true) s

/-- R130, R132 to R137: the type-code properties, and the flag word bit by bit. -/
def Obligations.TypeCodeFlagBits : Prop :=
  ∀ b0 b1 b2 b3 : Byte,
    (allAlpha [b0, b1, b2, b3] = true ↔
      alpha b0 = true ∧ alpha b1 = true ∧ alpha b2 = true ∧ alpha b3 = true) ∧
    critical [b0, b1, b2, b3] = upper b0 ∧ isPublic [b0, b1, b2, b3] = upper b1 ∧
    reservedValid [b0, b1, b2, b3] = upper b2 ∧ safeToCopy [b0, b1, b2, b3] = lower b3 ∧
    valid [b0, b1, b2, b3] = (upper b2 && allAlpha [b0, b1, b2, b3]) ∧
    (allAlpha [b0, b1, b2, b3] = true → ∃ f, f = tcFlags [b0, b1, b2, b3] ∧
      f.getLsbD 0 = true ∧ f.getLsbD 1 = upper b0 ∧ f.getLsbD 2 = upper b1 ∧ f.getLsbD 3 = upper b2 ∧
      f.getLsbD 4 = lower b3 ∧ f.getLsbD 5 = (upper b2 && allAlpha [b0, b1, b2, b3]) ∧ f.getLsbD 5 = f.getLsbD 3 ∧
      f.extractLsb' 6 26 = 0#26)

/-- R131, R139: the letters' ranges; bit 5 of a letter tells its case, and so the properties of a type code are bit 5 of its
bytes. -/
def Obligations.LetterCaseBit : Prop :=
  (∀ b : Byte, (upper b = true ↔ 0x41 ≤ b.toNat ∧ b.toNat ≤ 0x5A) ∧ (lower b = true ↔ 0x61 ≤ b.toNat ∧ b.toNat ≤ 0x7A) ∧
    (alpha b = true ↔ upper b = true ∨ lower b = true) ∧
    (alpha b = true → (upper b = true ↔ b.getLsbD 5 = false) ∧ (lower b = true ↔ b.getLsbD 5 = true))) ∧
  ∀ b0 b1 b2 b3 : Byte, allAlpha [b0, b1, b2, b3] = true →
    critical [b0, b1, b2, b3] = !b0.getLsbD 5 ∧ isPublic [b0, b1, b2, b3] = !b1.getLsbD 5 ∧
    reservedValid [b0, b1, b2, b3] = !b2.getLsbD 5 ∧ safeToCopy [b0, b1, b2, b3] = b3.getLsbD 5

/-- R140: TCCHK in every state: it completes, with the flag word of TYPE when all four bytes are letters, and else with
INVALID_TYPE_CODE and TCFLAGS 0, and changes nothing else. -/
def Obligations.TcchkResult : Prop :=
  ∀ s : State, ∃ t, t = [s.typ.extractLsb' 24 8, s.typ.extractLsb' 16 8, s.typ.extractLsb' 8 8, s.typ.extractLsb' 0 8] ∧
    (allAlpha t = true → CompletesWith .tcchk s .none { s with tcflags := tcFlags t }) ∧
    (allAlpha t = false → CompletesWith .tcchk s .invalidTypeCode { s with tcflags := 0#32 })

/-- R160: ENC in every state, by the first of its tests that fails: RANGE on the data span, INVALID_TYPE_CODE, RANGE on the
record span, OVERLAP, and success. -/
def Obligations.EncResult : Prop :=
  ∀ s : State, ∃ src n a t d c,
    src = s.src.toNat ∧ n = s.len.toNat ∧ a = s.dst.toNat ∧ t = tcBytes s.typ ∧ d = s.memRead src n ∧
    c = crcFeed 0xFFFFFFFF#32 (t ++ d) ∧
    (s.cfg.bufBytes < src + n → CompletesWith .enc s .range s) ∧
    (src + n ≤ s.cfg.bufBytes → allAlpha t = false → CompletesWith .enc s .invalidTypeCode { s with tcflags := 0#32 }) ∧
    (src + n ≤ s.cfg.bufBytes → allAlpha t = true → s.cfg.bufBytes < a + (n + 12) → CompletesWith .enc s .range s) ∧
    (src + n ≤ s.cfg.bufBytes → allAlpha t = true → a + (n + 12) ≤ s.cfg.bufBytes → overlap src n a (n + 12) = true →
      CompletesWith .enc s .overlap s) ∧
    (src + n ≤ s.cfg.bufBytes → allAlpha t = true → a + (n + 12) ≤ s.cfg.bufBytes → overlap src n a (n + 12) = false →
      CompletesWith .enc s .none { s with
        mem := s.mem.write a (toBe32 s.len ++ t ++ d ++ toBe32 (c ^^^ 0xFFFFFFFF#32))
        crcAcc := c
        crcOut := c ^^^ 0xFFFFFFFF#32
        dlen := s.len
        rlen := BitVec.ofNat 32 (n + 12)
        tcflags := tcFlags t })

/-- R155, R161: a successful ENC writes the record of the chunk built from TYPE and the data span into the record span, byte
for byte, and leaves every other buffer byte alone. -/
def Obligations.EncWritesExactlyTheRecord : Prop :=
  ∀ s t : State, exec .enc s = .next t → t.status.errcode = .none →
    ∃ c : Chunk, Chunk.new (tcBytes s.typ) (s.memRead s.src.toNat s.len.toNat) = .ok c ∧ c.valid = true ∧
      c.length = s.len ∧ c.encode = toBe32 c.length ++ c.typeCode ++ c.data ++ toBe32 c.checksum ∧
      c.encode.length = s.len.toNat + 12 ∧
      (∀ i < s.len.toNat + 12, t.mem.get? (s.dst.toNat + i) = c.encode[i]?) ∧
      (∀ x, x < s.dst.toNat ∨ s.dst.toNat + (s.len.toNat + 12) ≤ x → t.mem.get? x = s.mem.get? x) ∧
      t.memRead s.dst.toNat (s.len.toNat + 12) = c.encode

/-- R168: DEC in every state, by the first of its tests that fails, in the order of R202, and its success. -/
def Obligations.DecResult : Prop :=
  ∀ s : State, ∃ src avail a n t d kd c k,
    src = s.src.toNat ∧ avail = s.len.toNat ∧ a = s.dst.toNat ∧ n = (be32 (s.memRead src 4)).toNat ∧
    t = s.memRead (src + 4) 4 ∧ d = s.memRead (src + 8) n ∧ kd = be32 (s.memRead (src + 8 + n) 4) ∧
    c = crcFeed 0xFFFFFFFF#32 (t ++ d) ∧ k = c ^^^ 0xFFFFFFFF#32 ∧
    (s.cfg.bufBytes < src + avail → CompletesWith .dec s .range s) ∧
    (src + avail ≤ s.cfg.bufBytes →
      (avail < 8 → CompletesWith .dec s .truncatedInput s) ∧
      (8 ≤ avail → allAlpha t = false → CompletesWith .dec s .invalidTypeCode { s with tcflags := 0#32 }) ∧
      (8 ≤ avail → allAlpha t = true →
        (avail < 12 + n → CompletesWith .dec s .truncatedInput s) ∧
        (12 + n ≤ avail →
          (k ≠ kd → CompletesWith .dec s .checksumMismatch { s with crcAcc := c, crcOut := k, crcDecl := kd }) ∧
          (k = kd → s.cfg.bufBytes < a + n → CompletesWith .dec s .range s) ∧
          (k = kd → a + n ≤ s.cfg.bufBytes → overlap src (n + 12) a n = true → CompletesWith .dec s .overlap s) ∧
          (k = kd → a + n ≤ s.cfg.bufBytes → overlap src (n + 12) a n = false →
            CompletesWith .dec s .none { s with
              mem := s.mem.write a d
              typ := be32 t
              dlen := BitVec.ofNat 32 n
              rlen := BitVec.ofNat 32 (n + 12)
              crcAcc := c
              crcOut := k
              crcDecl := kd
              tcflags := tcFlags t }))))

/-- R169: a successful DEC leaves the decoded chunk in the registers and its data at DST, and no other buffer byte is
changed; a DEC that raises an error leaves no new chunk and writes no buffer byte. -/
def Obligations.DecLeavesTheChunk : Prop :=
  ∀ s t : State, exec .dec s = .next t →
    (t.status.errcode = .none → ∃ c : Chunk, c.valid = true ∧
      c.encode = s.memRead s.src.toNat (c.data.length + 12) ∧
      t.dlen = c.length ∧ tcBytes t.typ = c.typeCode ∧ t.memRead t.dst.toNat c.data.length = c.data ∧
      t.crcDecl = c.checksum ∧ t.crcOut = c.checksum ∧
      (∀ x, x < s.dst.toNat ∨ s.dst.toNat + c.data.length ≤ x → t.mem.get? x = s.mem.get? x)) ∧
    (t.status.errcode ≠ .none → t.typ = s.typ ∧ t.dlen = s.dlen ∧ t.rlen = s.rlen ∧ t.mem = s.mem)

/-- R162 to R167, R194, R266: DEC is the source's `Chunk.decode` on the bytes of its span. The span being in the buffer,
whatever `Chunk.decode` answers DEC completes and reports: the chunk when the output span passes its two tests, RANGE or
OVERLAP when it does not, and otherwise the source's error kind with its payload. -/
def Obligations.DecRefinesChunkDecode : Prop :=
  ∀ s : State, s.src.toNat + s.len.toNat ≤ s.cfg.bufBytes →
    ∃ t, exec .dec s = .next t ∧
      match Chunk.decode (s.memRead s.src.toNat s.len.toNat) with
      | .ok c =>
        c.valid = true ∧
        (s.cfg.bufBytes < s.dst.toNat + c.data.length → t.status.errcode = .range) ∧
        (s.dst.toNat + c.data.length ≤ s.cfg.bufBytes →
          overlap s.src.toNat c.encode.length s.dst.toNat c.data.length = true → t.status.errcode = .overlap) ∧
        (s.dst.toNat + c.data.length ≤ s.cfg.bufBytes →
          overlap s.src.toNat c.encode.length s.dst.toNat c.data.length = false →
          t.status.errcode = .none ∧ t.rlen.toNat = c.encode.length ∧
          chunkDecodeResult t s.dst.toNat = .ok c)
      | .error e => chunkDecodeResult t s.dst.toNat = .error e

/-- R170: after a successful ENC, a DEC of the record with an output span that passes its tests succeeds and gives back the
type code, the length, the data and the checksum. -/
def Obligations.EncodeThenDecode : Prop :=
  ∀ s s1 r : State, exec .enc s = .next s1 → s1.status.errcode = .none →
    r.cfg = s1.cfg → r.mem = s1.mem → r.src = s.dst → r.len.toNat = s.len.toNat + 12 →
    r.dst.toNat + s.len.toNat ≤ r.cfg.bufBytes →
    overlap r.src.toNat (s.len.toNat + 12) r.dst.toNat s.len.toNat = false →
    ∃ t, exec .dec r = .next t ∧ t.status.errcode = .none ∧ t.typ = s.typ ∧ t.dlen = s.len ∧
      t.memRead r.dst.toNat s.len.toNat = s.memRead s.src.toNat s.len.toNat ∧
      t.crcDecl = crc32 (tcBytes s.typ ++ s.memRead s.src.toNat s.len.toNat) ∧ t.crcOut = t.crcDecl

/-- R171: after a successful DEC, an ENC of the decoded type code, length and data reproduces the record. -/
def Obligations.DecodeThenEncode : Prop :=
  ∀ s s1 r : State, exec .dec s = .next s1 → s1.status.errcode = .none →
    r.cfg = s1.cfg → r.mem = s1.mem → r.typ = s1.typ → r.src = s.dst → r.len = s1.dlen →
    r.dst.toNat + (s1.dlen.toNat + 12) ≤ r.cfg.bufBytes →
    overlap r.src.toNat s1.dlen.toNat r.dst.toNat (s1.dlen.toNat + 12) = false →
    ∃ t, exec .enc r = .next t ∧ t.status.errcode = .none ∧
      t.memRead r.dst.toNat (s1.dlen.toNat + 12) = s.memRead s.src.toNat (s1.dlen.toNat + 12)

/-- R173, its first part: a record that DEC decodes, with one byte of its type-code or data region changed, gives
INVALID_TYPE_CODE when the byte is a type-code byte that is no letter now, and else CHECKSUM_MISMATCH. -/
def Obligations.OneByteTamperDetected : Prop :=
  ∀ (s s' t : State) (i : Nat) (x : Byte), exec .dec s = .next t → t.status.errcode = .none →
    s'.cfg = s.cfg → s'.src = s.src → s'.len = s.len → 4 ≤ i → i < 8 + t.dlen.toNat →
    x ≠ s.readByte (s.src.toNat + i) →
    (∀ j < s.len.toNat, s'.readByte (s.src.toNat + j) = if j = i then x else s.readByte (s.src.toNat + j)) →
    ∃ t', exec .dec s' = .next t' ∧
      t'.status.errcode = if i < 8 ∧ alpha x = false then .invalidTypeCode else .checksumMismatch

/-- R167: of a span that holds a whole record, DEC reads the record alone: with the same record bytes, any other bytes after
them and any other LEN from the record's length on whose span is in the buffer, it ends with the same code, which is
never TRUNCATED_INPUT, and with the same results that come with that code; on success RLEN is the record's length. -/
def Obligations.BytesAfterTheRecordIgnored : Prop :=
  ∀ (s s' : State) (n : Nat), n = (be32 (s.memRead s.src.toNat 4)).toNat →
    n + 12 ≤ s.len.toNat → s.src.toNat + s.len.toNat ≤ s.cfg.bufBytes →
    s'.cfg = s.cfg → s'.src = s.src → s'.dst = s.dst →
    n + 12 ≤ s'.len.toNat → s'.src.toNat + s'.len.toNat ≤ s'.cfg.bufBytes →
    s'.memRead s.src.toNat (n + 12) = s.memRead s.src.toNat (n + 12) →
    ∃ t t', exec .dec s = .next t ∧ exec .dec s' = .next t' ∧
      t'.status.errcode = t.status.errcode ∧ t.status.errcode ≠ .truncatedInput ∧
      (t.status.errcode = .none ∨ t.status.errcode = .checksumMismatch →
        t'.crcAcc = t.crcAcc ∧ t'.crcOut = t.crcOut ∧ t'.crcDecl = t.crcDecl) ∧
      (t.status.errcode = .none ∨ t.status.errcode = .invalidTypeCode → t'.tcflags = t.tcflags) ∧
      (t.status.errcode = .none → t'.typ = t.typ ∧ t'.dlen = t.dlen ∧ t'.rlen = t.rlen ∧ t.dlen.toNat = n ∧
        t'.rlen.toNat = n + 12 ∧ t'.memRead t.dst.toNat n = t.memRead t.dst.toNat n)

/-- R172: ENC's length and checksum depend on the type code and the data alone, and DEC's outcome on the bytes of its span,
SRC, LEN, DST and BUF_BYTES alone: the error code, and every register the outcome writes. -/
def Obligations.OutcomesDependOnInputsOnly : Prop :=
  (∀ s s' t t' : State, exec .enc s = .next t → t.status.errcode = .none →
    exec .enc s' = .next t' → t'.status.errcode = .none →
    s'.typ = s.typ → s'.memRead s'.src.toNat s'.len.toNat = s.memRead s.src.toNat s.len.toNat →
    t'.dlen = t.dlen ∧ t'.crcOut = t.crcOut) ∧
  (∀ s s' t t' : State, exec .dec s = .next t → exec .dec s' = .next t' →
    s'.src = s.src → s'.len = s.len → s'.dst = s.dst → s'.cfg.bufBytes = s.cfg.bufBytes →
    s'.memRead s.src.toNat s.len.toNat = s.memRead s.src.toNat s.len.toNat →
    t'.status.errcode = t.status.errcode ∧
    (t.status.errcode = .none ∨ t.status.errcode = .checksumMismatch →
      t'.crcAcc = t.crcAcc ∧ t'.crcOut = t.crcOut ∧ t'.crcDecl = t.crcDecl) ∧
    (t.status.errcode = .none ∨ t.status.errcode = .invalidTypeCode → t'.tcflags = t.tcflags) ∧
    (t.status.errcode = .none → t'.typ = t.typ ∧ t'.dlen = t.dlen ∧ t'.rlen = t.rlen ∧
      t'.memRead t.dst.toNat t.dlen.toNat = t.memRead t.dst.toNat t.dlen.toNat))

/-- R37: RLEN after a successful ENC or DEC is the record's length `N + 12`, which fits the buffer and 32 bits; no other
outcome and no other command writes RLEN; its reset value is 0. -/
def Obligations.RecordLengthRegister : Prop :=
  (∀ (i : Instr) (s t : State), s.cfg.sizeOk = true → exec i s = .next t →
    (i = .enc ∨ i = .dec) ∧ t.status.errcode = .none →
      t.rlen.toNat = t.dlen.toNat + 12 ∧ t.dlen.toNat + 12 ≤ s.cfg.bufBytes) ∧
  (∀ (i : Instr) (s t : State), exec i s = .next t →
    ¬ ((i = .enc ∨ i = .dec) ∧ t.status.errcode = .none) → t.rlen = s.rlen) ∧
  ∀ c, (State.resetOf c).rlen = 0#32

/-- R47: after every command that writes CRC_ACC, CRC_OUT is its complement; a later host write of another value to CRC_ACC
breaks the equality. -/
def Obligations.CrcOutIsComplement : Prop :=
  (∀ (i : Instr) (s t : State), exec i s = .next t → i ≠ .tcchk →
    t.status.errcode = .none ∨ t.status.errcode = .checksumMismatch → t.crcOut = t.crcAcc ^^^ 0xFFFFFFFF#32) ∧
  (∀ (i : Instr) (s t : State), exec i s = .next t → t.crcAcc ≠ s.crcAcc →
    i ≠ .tcchk ∧ (t.status.errcode = .none ∨ t.status.errcode = .checksumMismatch)) ∧
  ∀ (s : State) (v : Word), s.crcOut = s.crcAcc ^^^ 0xFFFFFFFF#32 → v ≠ s.crcAcc →
    (s.writeReg v .crcAcc).crcOut ≠ (s.writeReg v .crcAcc).crcAcc ^^^ 0xFFFFFFFF#32

/-- R44's table, the writes, as a frame: what each command leaves unchanged. No command writes SRC, LEN, DST or CMD; CRC and
TCCHK write no buffer byte and only their own registers; ENC does not write TYPE or CRC_DECL. -/
def Obligations.CommandsWriteOnlyTheirRegisters : Prop :=
  ∀ (i : Instr) (s t : State), exec i s = .next t →
    t.cfg = s.cfg ∧ t.cmd = s.cmd ∧ t.src = s.src ∧ t.len = s.len ∧ t.dst = s.dst ∧ t.status.ovr = s.status.ovr ∧
    t.agenda = s.agenda ∧ t.resp = s.resp ∧
    (∀ init, i = .crc init → t.typ = s.typ ∧ t.crcDecl = s.crcDecl ∧ t.dlen = s.dlen ∧ t.rlen = s.rlen ∧
      t.tcflags = s.tcflags ∧ ∀ a, t.mem.get? a = s.mem.get? a) ∧
    (i = .tcchk → t.typ = s.typ ∧ t.crcAcc = s.crcAcc ∧ t.crcOut = s.crcOut ∧ t.crcDecl = s.crcDecl ∧
      t.dlen = s.dlen ∧ t.rlen = s.rlen ∧ ∀ a, t.mem.get? a = s.mem.get? a) ∧
    (i = .enc → t.typ = s.typ ∧ t.crcDecl = s.crcDecl)

/-- R200: a command that raises an error writes only what its pseudocode lists before the raise: no buffer byte, no TYPE,
DLEN or RLEN, the CRC registers only on CHECKSUM_MISMATCH, and TCFLAGS only to 0 on INVALID_TYPE_CODE. -/
def Obligations.NoPartialResult : Prop :=
  ∀ (i : Instr) (s t : State), exec i s = .next t → t.status.errcode ≠ .none →
    t.mem = s.mem ∧ t.cmd = s.cmd ∧ t.src = s.src ∧ t.len = s.len ∧ t.dst = s.dst ∧ t.typ = s.typ ∧
    t.dlen = s.dlen ∧ t.rlen = s.rlen ∧
    (t.status.errcode ≠ .checksumMismatch →
      t.crcAcc = s.crcAcc ∧ t.crcOut = s.crcOut ∧ t.crcDecl = s.crcDecl) ∧
    (t.status.errcode ≠ .invalidTypeCode → t.tcflags = s.tcflags) ∧
    (t.status.errcode = .invalidTypeCode → t.tcflags = 0#32)

/-- R190, column "raised by": which codes each command can end with. -/
def Obligations.ErrorCodesByCommand : Prop :=
  ∀ (i : Instr) (s t : State), exec i s = .next t →
    t.status.errcode ≠ .illegalCommand ∧
    (∀ init, i = .crc init → t.status.errcode = .none ∨ t.status.errcode = .range) ∧
    (i = .tcchk → t.status.errcode = .none ∨ t.status.errcode = .invalidTypeCode) ∧
    (i = .enc → t.status.errcode ≠ .truncatedInput ∧ t.status.errcode ≠ .checksumMismatch)

/-- R199: completion, for a command of any kind and for an illegal word: BUSY is 0, ERR tells whether ERRCODE is 0, and OVR
is not changed. -/
def Obligations.CompletionStatus : Prop :=
  (∀ (i : Instr) (s : State), ∃ t, exec i s = .next t ∧ t.status.busy = false ∧
    t.status.err = (t.status.errcode != .none) ∧ t.status.ovr = s.status.ovr) ∧
  (∀ s : State, ∃ t, execIllegal s = .next t ∧ t.status.busy = false ∧ t.status.err = true ∧
    t.status.errcode = .illegalCommand ∧ t.status.ovr = s.status.ovr)

/-- R94, R196: the ENGINE completes a pending illegal word with ILLEGAL_COMMAND; CMD keeps the word, and no other register
and no buffer byte is written. -/
def Obligations.IllegalCommandCompletes : Prop :=
  ∀ s : State, s.status.busy = true → engineNext s → decode s.cmd = .illegal →
    ∃ n, step s = .next { s with
      status := { busy := false, err := true, ovr := s.status.ovr, errcode := .illegalCommand }
      agenda := s.agenda.tail
      draws := n }

/-- R232: a step on the ENGINE's turn with a command pending runs exactly what CMD decodes to, with the turn taken off the
agenda: the command, or the completion of an illegal word. -/
def Obligations.StepRunsTheDecodedCommand : Prop :=
  ∀ s : State, s.status.busy = true → engineNext s →
    (∀ i : Instr, decode s.cmd = .command i → step s = exec i { s with agenda := s.agenda.tail }) ∧
    (decode s.cmd = .illegal → step s = execIllegal { s with agenda := s.agenda.tail })

/-- R231: on its turn the ENGINE has a step exactly when BUSY = 1, and that step completes the command, whatever the buffer
and the operands hold; when BUSY = 0 its turn changes nothing; the HOST may step in either state. -/
def Obligations.EveryCommandCompletes : Prop :=
  ∀ s : State,
    (engineNext s → s.status.busy = true → ∃ t, step s = .next t ∧ t.status.busy = false) ∧
    (engineNext s → s.status.busy = false → step s = .next { s with agenda := s.agenda.tail }) ∧
    (s.cfg.wf = true → ∀ acc : Access, accessLegal s.cfg acc.bits acc.addr → ∃ t, step (hostNext s acc) = .next t)

/-- R230: IDLE to BUSY is an accepted CMD write and nothing else; BUSY to IDLE is the ENGINE's step or reset and nothing
else. -/
def Obligations.LifecycleTransitions : Prop :=
  ∀ s t : State, step s = .next t →
    (s.status.busy = false → (t.status.busy = true ↔
      ∃ w rest, s.agenda = .host (writeSlot s.cfg .cmd w) :: rest)) ∧
    (s.status.busy = true → (t.status.busy = false ↔
      engineNext s ∨ ∃ rest, s.agenda = .reset :: rest))

/-- R78, R80: while a command is pending no host access changes the command, the operands it will read, or any buffer
byte. -/
def Obligations.PendingCommandUntouchedByHost : Prop :=
  ∀ (s t : State) (acc : Access), s.status.busy = true → step (hostNext s acc) = .next t →
    t.status.busy = true ∧ t.cmd = s.cmd ∧ t.mem = s.mem ∧ t.cfg = s.cfg ∧ (∀ r, r ≠ .status → t.readReg r = s.readReg r)

/-- R20: the register map, at its literal offsets: what the HOST reads at each right after reset; the register that an RW
slot reads and writes; and the slots at which it cannot write. -/
def Obligations.RegisterMap : Prop :=
  (∀ c : Config, c.wf = true → ∀ ov ∈ [(0x00, 0x48504346#32), (0x04, 0#32), (0x08, 0#32), (0x0C, 0#32), (0x10, 0#32),
      (0x14, 0#32), (0x18, 0#32), (0x1C, 0xFFFFFFFF#32), (0x20, 0#32), (0x24, 0#32), (0x28, 0#32), (0x2C, 0#32), (0x30, 0#32),
      (0x34, BitVec.ofNat 32 c.bufBytes), (0x38, 0#32), (0x3C, 0#32)],
    ∃ n, step (hostNext (State.resetOf c) (.read 32 (c.regBase + ov.1))) =
      .next { State.resetOf c with resp := some (.word ov.2), draws := n }) ∧
  ∀ s : State, s.cfg.wf = true → s.status.busy = false →
    (∀ ov ∈ [(0x00, 0x48504346#32), (0x04, s.cmd), (0x08, s.status.word), (0x0C, s.src), (0x10, s.len), (0x14, s.dst),
        (0x18, s.typ), (0x1C, s.crcAcc), (0x20, s.crcOut), (0x24, s.crcDecl), (0x28, s.dlen), (0x2C, s.rlen),
        (0x30, s.tcflags), (0x34, BitVec.ofNat 32 s.cfg.bufBytes), (0x38, 0#32), (0x3C, 0#32)],
      ∃ n, step (hostNext s (.read 32 (s.cfg.regBase + ov.1))) =
        .next { s with resp := some (.word ov.2), draws := n }) ∧
    ∀ v : Word,
      step (hostNext s (.write 32 (s.cfg.regBase + 0x04) v)) = .next { s with
        cmd := v
        status := { busy := true, err := false, ovr := false, errcode := .none }
        resp := some .written } ∧
      step (hostNext s (.write 32 (s.cfg.regBase + 0x0C) v)) = .next { s with src := v, resp := some .written } ∧
      step (hostNext s (.write 32 (s.cfg.regBase + 0x10) v)) = .next { s with len := v, resp := some .written } ∧
      step (hostNext s (.write 32 (s.cfg.regBase + 0x14) v)) = .next { s with dst := v, resp := some .written } ∧
      step (hostNext s (.write 32 (s.cfg.regBase + 0x18) v)) = .next { s with typ := v, resp := some .written } ∧
      step (hostNext s (.write 32 (s.cfg.regBase + 0x1C) v)) = .next { s with crcAcc := v, resp := some .written } ∧
      ∀ off ∈ [0x00, 0x08, 0x20, 0x24, 0x28, 0x2C, 0x30, 0x34, 0x38, 0x3C],
        step (hostNext s (.write 32 (s.cfg.regBase + off) v)) = .next { s with resp := some .written }
end

