-- ==== Sys2Proof/Laws/State.lean ====
section
/-! SUPPORT. One lemma per field per shared update of the state, true by rfl, so that no later proof unfolds a record update. -/

namespace Sys2Proof.Machine.State

@[simp] theorem completed_cfg (s : State) (e : ErrCode) : (s.completed e).cfg = s.cfg := rfl
@[simp] theorem completed_cmd (s : State) (e : ErrCode) : (s.completed e).cmd = s.cmd := rfl
@[simp] theorem completed_status_busy (s : State) (e : ErrCode) : (s.completed e).status.busy = false := rfl
@[simp] theorem completed_status_err (s : State) (e : ErrCode) : (s.completed e).status.err = (e != .none) := rfl
@[simp] theorem completed_status_ovr (s : State) (e : ErrCode) : (s.completed e).status.ovr = s.status.ovr := rfl
@[simp] theorem completed_status_errcode (s : State) (e : ErrCode) : (s.completed e).status.errcode = e := rfl
@[simp] theorem completed_src (s : State) (e : ErrCode) : (s.completed e).src = s.src := rfl
@[simp] theorem completed_len (s : State) (e : ErrCode) : (s.completed e).len = s.len := rfl
@[simp] theorem completed_dst (s : State) (e : ErrCode) : (s.completed e).dst = s.dst := rfl
@[simp] theorem completed_typ (s : State) (e : ErrCode) : (s.completed e).typ = s.typ := rfl
@[simp] theorem completed_crcAcc (s : State) (e : ErrCode) : (s.completed e).crcAcc = s.crcAcc := rfl
@[simp] theorem completed_crcOut (s : State) (e : ErrCode) : (s.completed e).crcOut = s.crcOut := rfl
@[simp] theorem completed_crcDecl (s : State) (e : ErrCode) : (s.completed e).crcDecl = s.crcDecl := rfl
@[simp] theorem completed_dlen (s : State) (e : ErrCode) : (s.completed e).dlen = s.dlen := rfl
@[simp] theorem completed_rlen (s : State) (e : ErrCode) : (s.completed e).rlen = s.rlen := rfl
@[simp] theorem completed_tcflags (s : State) (e : ErrCode) : (s.completed e).tcflags = s.tcflags := rfl
@[simp] theorem completed_mem (s : State) (e : ErrCode) : (s.completed e).mem = s.mem := rfl
@[simp] theorem completed_agenda (s : State) (e : ErrCode) : (s.completed e).agenda = s.agenda := rfl
@[simp] theorem completed_resp (s : State) (e : ErrCode) : (s.completed e).resp = s.resp := rfl
@[simp] theorem completed_draws (s : State) (e : ErrCode) : (s.completed e).draws = s.draws + 1 := rfl

@[simp] theorem acceptCommand_cfg (s : State) (w : Word) : (s.acceptCommand w).cfg = s.cfg := rfl
@[simp] theorem acceptCommand_cmd (s : State) (w : Word) : (s.acceptCommand w).cmd = w := rfl
@[simp] theorem acceptCommand_status (s : State) (w : Word) : (s.acceptCommand w).status = { busy := true, err := false, ovr := false, errcode := .none } := rfl
@[simp] theorem acceptCommand_src (s : State) (w : Word) : (s.acceptCommand w).src = s.src := rfl
@[simp] theorem acceptCommand_len (s : State) (w : Word) : (s.acceptCommand w).len = s.len := rfl
@[simp] theorem acceptCommand_dst (s : State) (w : Word) : (s.acceptCommand w).dst = s.dst := rfl
@[simp] theorem acceptCommand_typ (s : State) (w : Word) : (s.acceptCommand w).typ = s.typ := rfl
@[simp] theorem acceptCommand_crcAcc (s : State) (w : Word) : (s.acceptCommand w).crcAcc = s.crcAcc := rfl
@[simp] theorem acceptCommand_crcOut (s : State) (w : Word) : (s.acceptCommand w).crcOut = s.crcOut := rfl
@[simp] theorem acceptCommand_crcDecl (s : State) (w : Word) : (s.acceptCommand w).crcDecl = s.crcDecl := rfl
@[simp] theorem acceptCommand_dlen (s : State) (w : Word) : (s.acceptCommand w).dlen = s.dlen := rfl
@[simp] theorem acceptCommand_rlen (s : State) (w : Word) : (s.acceptCommand w).rlen = s.rlen := rfl
@[simp] theorem acceptCommand_tcflags (s : State) (w : Word) : (s.acceptCommand w).tcflags = s.tcflags := rfl
@[simp] theorem acceptCommand_mem (s : State) (w : Word) : (s.acceptCommand w).mem = s.mem := rfl
@[simp] theorem acceptCommand_agenda (s : State) (w : Word) : (s.acceptCommand w).agenda = s.agenda := rfl
@[simp] theorem acceptCommand_resp (s : State) (w : Word) : (s.acceptCommand w).resp = s.resp := rfl
@[simp] theorem acceptCommand_draws (s : State) (w : Word) : (s.acceptCommand w).draws = s.draws := rfl

@[simp] theorem overrun_cfg (s : State) : s.overrun.cfg = s.cfg := rfl
@[simp] theorem overrun_cmd (s : State) : s.overrun.cmd = s.cmd := rfl
@[simp] theorem overrun_status (s : State) : s.overrun.status = { s.status with ovr := true } := rfl
@[simp] theorem overrun_src (s : State) : s.overrun.src = s.src := rfl
@[simp] theorem overrun_len (s : State) : s.overrun.len = s.len := rfl
@[simp] theorem overrun_dst (s : State) : s.overrun.dst = s.dst := rfl
@[simp] theorem overrun_typ (s : State) : s.overrun.typ = s.typ := rfl
@[simp] theorem overrun_crcAcc (s : State) : s.overrun.crcAcc = s.crcAcc := rfl
@[simp] theorem overrun_crcOut (s : State) : s.overrun.crcOut = s.crcOut := rfl
@[simp] theorem overrun_crcDecl (s : State) : s.overrun.crcDecl = s.crcDecl := rfl
@[simp] theorem overrun_dlen (s : State) : s.overrun.dlen = s.dlen := rfl
@[simp] theorem overrun_rlen (s : State) : s.overrun.rlen = s.rlen := rfl
@[simp] theorem overrun_tcflags (s : State) : s.overrun.tcflags = s.tcflags := rfl
@[simp] theorem overrun_mem (s : State) : s.overrun.mem = s.mem := rfl
@[simp] theorem overrun_agenda (s : State) : s.overrun.agenda = s.agenda := rfl
@[simp] theorem overrun_resp (s : State) : s.overrun.resp = s.resp := rfl
@[simp] theorem overrun_draws (s : State) : s.overrun.draws = s.draws := rfl

@[simp] theorem respond_cfg (s : State) (r : Response) : (s.respond r).cfg = s.cfg := rfl
@[simp] theorem respond_cmd (s : State) (r : Response) : (s.respond r).cmd = s.cmd := rfl
@[simp] theorem respond_status (s : State) (r : Response) : (s.respond r).status = s.status := rfl
@[simp] theorem respond_src (s : State) (r : Response) : (s.respond r).src = s.src := rfl
@[simp] theorem respond_len (s : State) (r : Response) : (s.respond r).len = s.len := rfl
@[simp] theorem respond_dst (s : State) (r : Response) : (s.respond r).dst = s.dst := rfl
@[simp] theorem respond_typ (s : State) (r : Response) : (s.respond r).typ = s.typ := rfl
@[simp] theorem respond_crcAcc (s : State) (r : Response) : (s.respond r).crcAcc = s.crcAcc := rfl
@[simp] theorem respond_crcOut (s : State) (r : Response) : (s.respond r).crcOut = s.crcOut := rfl
@[simp] theorem respond_crcDecl (s : State) (r : Response) : (s.respond r).crcDecl = s.crcDecl := rfl
@[simp] theorem respond_dlen (s : State) (r : Response) : (s.respond r).dlen = s.dlen := rfl
@[simp] theorem respond_rlen (s : State) (r : Response) : (s.respond r).rlen = s.rlen := rfl
@[simp] theorem respond_tcflags (s : State) (r : Response) : (s.respond r).tcflags = s.tcflags := rfl
@[simp] theorem respond_mem (s : State) (r : Response) : (s.respond r).mem = s.mem := rfl
@[simp] theorem respond_agenda (s : State) (r : Response) : (s.respond r).agenda = s.agenda := rfl
@[simp] theorem respond_resp (s : State) (r : Response) : (s.respond r).resp = some r := rfl
@[simp] theorem respond_draws (s : State) (r : Response) : (s.respond r).draws = s.draws := rfl

@[simp] theorem memWrite_cfg (s : State) (a : Nat) (bs : List Byte) : (s.memWrite a bs).cfg = s.cfg := rfl
@[simp] theorem memWrite_cmd (s : State) (a : Nat) (bs : List Byte) : (s.memWrite a bs).cmd = s.cmd := rfl
@[simp] theorem memWrite_status (s : State) (a : Nat) (bs : List Byte) : (s.memWrite a bs).status = s.status := rfl
@[simp] theorem memWrite_src (s : State) (a : Nat) (bs : List Byte) : (s.memWrite a bs).src = s.src := rfl
@[simp] theorem memWrite_len (s : State) (a : Nat) (bs : List Byte) : (s.memWrite a bs).len = s.len := rfl
@[simp] theorem memWrite_dst (s : State) (a : Nat) (bs : List Byte) : (s.memWrite a bs).dst = s.dst := rfl
@[simp] theorem memWrite_typ (s : State) (a : Nat) (bs : List Byte) : (s.memWrite a bs).typ = s.typ := rfl
@[simp] theorem memWrite_crcAcc (s : State) (a : Nat) (bs : List Byte) : (s.memWrite a bs).crcAcc = s.crcAcc := rfl
@[simp] theorem memWrite_crcOut (s : State) (a : Nat) (bs : List Byte) : (s.memWrite a bs).crcOut = s.crcOut := rfl
@[simp] theorem memWrite_crcDecl (s : State) (a : Nat) (bs : List Byte) : (s.memWrite a bs).crcDecl = s.crcDecl := rfl
@[simp] theorem memWrite_dlen (s : State) (a : Nat) (bs : List Byte) : (s.memWrite a bs).dlen = s.dlen := rfl
@[simp] theorem memWrite_rlen (s : State) (a : Nat) (bs : List Byte) : (s.memWrite a bs).rlen = s.rlen := rfl
@[simp] theorem memWrite_tcflags (s : State) (a : Nat) (bs : List Byte) : (s.memWrite a bs).tcflags = s.tcflags := rfl
@[simp] theorem memWrite_mem (s : State) (a : Nat) (bs : List Byte) : (s.memWrite a bs).mem = s.mem.write a bs := rfl
@[simp] theorem memWrite_agenda (s : State) (a : Nat) (bs : List Byte) : (s.memWrite a bs).agenda = s.agenda := rfl
@[simp] theorem memWrite_resp (s : State) (a : Nat) (bs : List Byte) : (s.memWrite a bs).resp = s.resp := rfl
@[simp] theorem memWrite_draws (s : State) (a : Nat) (bs : List Byte) : (s.memWrite a bs).draws = s.draws := rfl

@[simp] theorem applyReset_cfg (s : State) : s.applyReset.cfg = s.cfg := rfl
@[simp] theorem applyReset_cmd (s : State) : s.applyReset.cmd = 0#32 := rfl
@[simp] theorem applyReset_status (s : State) : s.applyReset.status = { busy := false, err := false, ovr := false, errcode := .none } := rfl
@[simp] theorem applyReset_src (s : State) : s.applyReset.src = 0#32 := rfl
@[simp] theorem applyReset_len (s : State) : s.applyReset.len = 0#32 := rfl
@[simp] theorem applyReset_dst (s : State) : s.applyReset.dst = 0#32 := rfl
@[simp] theorem applyReset_typ (s : State) : s.applyReset.typ = 0#32 := rfl
@[simp] theorem applyReset_crcAcc (s : State) : s.applyReset.crcAcc = 0xFFFFFFFF#32 := rfl
@[simp] theorem applyReset_crcOut (s : State) : s.applyReset.crcOut = 0#32 := rfl
@[simp] theorem applyReset_crcDecl (s : State) : s.applyReset.crcDecl = 0#32 := rfl
@[simp] theorem applyReset_dlen (s : State) : s.applyReset.dlen = 0#32 := rfl
@[simp] theorem applyReset_rlen (s : State) : s.applyReset.rlen = 0#32 := rfl
@[simp] theorem applyReset_tcflags (s : State) : s.applyReset.tcflags = 0#32 := rfl
@[simp] theorem applyReset_mem (s : State) : s.applyReset.mem = [] := rfl
@[simp] theorem applyReset_agenda (s : State) : s.applyReset.agenda = s.agenda := rfl
@[simp] theorem applyReset_resp (s : State) : s.applyReset.resp = none := rfl
@[simp] theorem applyReset_draws (s : State) : s.applyReset.draws = s.draws + 1 := rfl

@[simp] theorem withFetchWord_cfg (s : State) (k w : Nat) : (s.withFetchWord k w).cfg = s.cfg := rfl
@[simp] theorem withFetchWord_cmd (s : State) (k w : Nat) : (s.withFetchWord k w).cmd = BitVec.ofNat 32 w := rfl
@[simp] theorem withFetchWord_status (s : State) (k w : Nat) : (s.withFetchWord k w).status = { busy := true, err := false, ovr := false, errcode := .none } := rfl
@[simp] theorem withFetchWord_src (s : State) (k w : Nat) : (s.withFetchWord k w).src = s.src := rfl
@[simp] theorem withFetchWord_len (s : State) (k w : Nat) : (s.withFetchWord k w).len = s.len := rfl
@[simp] theorem withFetchWord_dst (s : State) (k w : Nat) : (s.withFetchWord k w).dst = s.dst := rfl
@[simp] theorem withFetchWord_typ (s : State) (k w : Nat) : (s.withFetchWord k w).typ = s.typ := rfl
@[simp] theorem withFetchWord_crcAcc (s : State) (k w : Nat) : (s.withFetchWord k w).crcAcc = s.crcAcc := rfl
@[simp] theorem withFetchWord_crcOut (s : State) (k w : Nat) : (s.withFetchWord k w).crcOut = s.crcOut := rfl
@[simp] theorem withFetchWord_crcDecl (s : State) (k w : Nat) : (s.withFetchWord k w).crcDecl = s.crcDecl := rfl
@[simp] theorem withFetchWord_dlen (s : State) (k w : Nat) : (s.withFetchWord k w).dlen = s.dlen := rfl
@[simp] theorem withFetchWord_rlen (s : State) (k w : Nat) : (s.withFetchWord k w).rlen = s.rlen := rfl
@[simp] theorem withFetchWord_tcflags (s : State) (k w : Nat) : (s.withFetchWord k w).tcflags = s.tcflags := rfl
@[simp] theorem withFetchWord_mem (s : State) (k w : Nat) : (s.withFetchWord k w).mem = s.mem := rfl
@[simp] theorem withFetchWord_agenda (s : State) (k w : Nat) : (s.withFetchWord k w).agenda = .engine :: s.agenda := rfl
@[simp] theorem withFetchWord_resp (s : State) (k w : Nat) : (s.withFetchWord k w).resp = s.resp := rfl
@[simp] theorem withFetchWord_draws (s : State) (k w : Nat) : (s.withFetchWord k w).draws = s.draws := rfl

/-- A register write changes neither the parameters nor the buffer nor the model's own fields. -/
@[simp] theorem writeReg_cfg (s : State) (v : Word) (r : Reg) : (s.writeReg v r).cfg = s.cfg := by cases r <;> rfl
@[simp] theorem writeReg_mem (s : State) (v : Word) (r : Reg) : (s.writeReg v r).mem = s.mem := by cases r <;> rfl
@[simp] theorem writeReg_agenda (s : State) (v : Word) (r : Reg) : (s.writeReg v r).agenda = s.agenda := by cases r <;> rfl
@[simp] theorem writeReg_resp (s : State) (v : Word) (r : Reg) : (s.writeReg v r).resp = s.resp := by cases r <;> rfl
@[simp] theorem writeReg_draws (s : State) (v : Word) (r : Reg) : (s.writeReg v r).draws = s.draws := by cases r <;> rfl
@[simp] theorem writeReg_crcOut (s : State) (v : Word) (r : Reg) : (s.writeReg v r).crcOut = s.crcOut := by cases r <;> rfl
@[simp] theorem writeReg_crcDecl (s : State) (v : Word) (r : Reg) : (s.writeReg v r).crcDecl = s.crcDecl := by cases r <;> rfl
@[simp] theorem writeReg_dlen (s : State) (v : Word) (r : Reg) : (s.writeReg v r).dlen = s.dlen := by cases r <;> rfl
@[simp] theorem writeReg_rlen (s : State) (v : Word) (r : Reg) : (s.writeReg v r).rlen = s.rlen := by cases r <;> rfl
@[simp] theorem writeReg_tcflags (s : State) (v : Word) (r : Reg) : (s.writeReg v r).tcflags = s.tcflags := by cases r <;> rfl

end Sys2Proof.Machine.State
end

