-- ==== Sys2Proof/Laws/Memory.lean ====
section
/-! SUPPORT. The laws of the buffer memory: reading back what was written, leaving every other byte alone, and keeping the
canonical form. -/

namespace Sys2Proof.Machine

namespace Memory

@[simp] theorem get?_nil (a : Nat) : get? [] a = none := rfl

/-- Everything a one-byte write does, as seen by a read of any byte. -/
theorem get?_set (m : Memory) (a x : Nat) (b : Byte) :
    (m.set a b).get? x = if x = a then some b else m.get? x := by
  induction m with
  | nil => simp [set, get?]
  | cons c m ih =>
    obtain ⟨k, v⟩ := c
    by_cases hlt : a < k
    · simp [set, get?, hlt]
    · by_cases heq : a = k
      · subst heq
        by_cases hx : x = a <;> simp [set, get?, hx]
      · by_cases hxk : x = k
        · subst hxk
          have : x ≠ a := fun h => heq h.symm
          simp [set, get?, hlt, heq, this]
        · simp [set, get?, hlt, heq, hxk, ih]

/-- Everything a span write does, as seen by a read of any byte. -/
theorem get?_write (bs : List Byte) (m : Memory) (a x : Nat) :
    (m.write a bs).get? x = if a ≤ x ∧ x < a + bs.length then bs[x - a]? else m.get? x := by
  induction bs generalizing m a with
  | nil =>
    have : ¬(a ≤ x ∧ x < a) := by omega
    simp [write, this]
  | cons b bs ih =>
    simp only [write, ih, get?_set, List.length_cons]
    by_cases hx : x = a
    · subst hx
      simp
    · by_cases hin : a + 1 ≤ x ∧ x < a + 1 + bs.length
      · have h2 : a ≤ x ∧ x < a + (bs.length + 1) := by omega
        have h3 : x - a = x - (a + 1) + 1 := by omega
        simp [hin, h2, h3]
      · have h2 : ¬(a ≤ x ∧ x < a + (bs.length + 1)) := by omega
        rw [if_neg hin, if_neg h2, if_neg hx]

/-- The addresses a one-byte write lists. -/
theorem mem_set {m : Memory} {a : Nat} {b : Byte} {c : Host.Cell} (h : c ∈ m.set a b) : c ∈ m ∨ c.1 = a := by
  induction m with
  | nil => simp_all [set]
  | cons d m ih =>
    obtain ⟨k, v⟩ := d
    unfold set at h
    split at h
    · simp only [List.mem_cons] at h ⊢
      rcases h with rfl | h
      · exact .inr rfl
      · exact .inl h
    · split at h
      · simp only [List.mem_cons] at h ⊢
        rcases h with rfl | h
        · exact .inr rfl
        · exact .inl (.inr h)
      · simp only [List.mem_cons] at h ⊢
        rcases h with rfl | h
        · exact .inl (.inl rfl)
        · exact (ih h).imp .inr id

/-- A one-byte write keeps the canonical form. -/
theorem set_wf {m : Memory} (h : wf m) (a : Nat) (b : Byte) : wf (m.set a b) := by
  induction m with
  | nil => simp [set]
  | cons d m ih =>
    obtain ⟨k, v⟩ := d
    have hm := List.pairwise_cons.mp h
    unfold set
    split
    · rename_i hlt
      refine List.pairwise_cons.mpr ⟨fun c hc => ?_, h⟩
      rcases List.mem_cons.mp hc with rfl | hc
      · exact hlt
      · exact Nat.lt_trans hlt (hm.1 c hc)
    · split
      · rename_i heq
        subst heq
        exact List.pairwise_cons.mpr ⟨hm.1, hm.2⟩
      · refine List.pairwise_cons.mpr ⟨fun c hc => ?_, ih hm.2⟩
        rcases mem_set hc with hc | hc
        · exact hm.1 c hc
        · show k < c.1
          omega

/-- A span write keeps the canonical form. -/
theorem write_wf {m : Memory} (h : wf m) (a : Nat) (bs : List Byte) : wf (m.write a bs) := by
  induction bs generalizing m a with
  | nil => exact h
  | cons b bs ih => exact ih (set_wf h a b) (a + 1)

/-- The addresses a span write lists. -/
theorem mem_write {bs : List Byte} {m : Memory} {a : Nat} {c : Host.Cell} (h : c ∈ m.write a bs) :
    c ∈ m ∨ (a ≤ c.1 ∧ c.1 < a + bs.length) := by
  induction bs generalizing m a with
  | nil => exact .inl h
  | cons b bs ih =>
    rcases ih h with h | h
    · rcases mem_set h with h | h
      · exact .inl h
      · exact .inr ⟨by omega, by simp; omega⟩
    · exact .inr ⟨by omega, by simp; omega⟩

end Memory

namespace State

@[simp] theorem memRead_length (s : State) (a n : Nat) : (s.memRead a n).length = n := by simp [memRead]

@[simp] theorem memRead_zero (s : State) (a : Nat) : s.memRead a 0 = [] := rfl

/-- Byte `i` of a span read. -/
theorem memRead_getElem? (s : State) (a n i : Nat) :
    (s.memRead a n)[i]? = if i < n then some (s.readByte (a + i)) else none := by
  by_cases h : i < n <;> simp [memRead, h]

/-- A span read is cut into two by any point of the span. -/
theorem memRead_add (s : State) (a m n : Nat) : s.memRead a (m + n) = s.memRead a m ++ s.memRead (a + m) n := by
  simp [memRead, ← List.range'_append_1]

/-- The start of a longer span. -/
theorem memRead_take (s : State) (a m n : Nat) (h : m ≤ n) : (s.memRead a n).take m = s.memRead a m := by
  obtain ⟨k, rfl⟩ := Nat.exists_eq_add_of_le h
  rw [memRead_add, List.take_append_of_le_length (by simp), List.take_of_length_le (by simp)]

/-- The rest of a longer span. -/
theorem memRead_drop (s : State) (a m n : Nat) (h : m ≤ n) : (s.memRead a n).drop m = s.memRead (a + m) (n - m) := by
  obtain ⟨k, rfl⟩ := Nat.exists_eq_add_of_le h
  rw [memRead_add]
  simp

/-- Two span reads agree when they agree byte by byte. -/
theorem memRead_congr {s t : State} {a b n : Nat} (h : ∀ i < n, s.readByte (a + i) = t.readByte (b + i)) :
    s.memRead a n = t.memRead b n := by
  apply List.ext_getElem? fun i => ?_
  rw [memRead_getElem?, memRead_getElem?]
  split
  · rename_i hi
    rw [h i hi]
  · rfl

/-- A written byte is read as it is, whatever the draw. -/
theorem readByte_of_get? {s : State} {a : Nat} {b : Byte} (h : s.mem.get? a = some b) : s.readByte a = b := by
  simp [readByte, h]

/-- Reading back a span that holds a byte sequence. -/
theorem memRead_of_get? {s : State} {a : Nat} {bs : List Byte}
    (h : ∀ i (hi : i < bs.length), s.mem.get? (a + i) = some bs[i]) : s.memRead a bs.length = bs := by
  apply List.ext_getElem? fun i => ?_
  rw [memRead_getElem?]
  split
  · rename_i hi
    rw [readByte_of_get? (h i hi), List.getElem?_eq_getElem hi]
  · rename_i hi
    rw [List.getElem?_eq_none (by omega)]

end State
end Sys2Proof.Machine
end

