-- ==== Sys2Proof/Laws/Bus.lean ====
section
/-! SUPPORT. What a bus address reaches, and when an access raises no bus error, said once for all host accesses. -/

namespace Sys2Proof.Machine

/-- Legal parameters, as linear facts (R7, R63). -/
theorem wf_facts {c : Config} (h : c.wf = true) :
    (c.regBase + 64 ≤ c.bufBase ∨ c.bufBase + c.bufBytes ≤ c.regBase) ∧ 12 ≤ c.bufBytes ∧
      c.bufBytes ≤ 2 ^ 32 - 1 ∧ c.regBase % 4 = 0 ∧ c.bufBase % 4 = 0 := by
  simp only [Config.wf, Config.sizeOk, Config.alignOk, Config.windowsOk, Config.windowBytes, Bool.and_eq_true,
    Bool.or_eq_true, decide_eq_true_eq, beq_iff_eq] at h
  obtain ⟨⟨⟨h1, h2⟩, h3, h4⟩, h5⟩ := h
  exact ⟨h5.imp of_decide_eq_true id, h1, h2, h3, h4⟩

theorem atOffset_offset (r : Reg) : Reg.atOffset r.offset = some r := by cases r <;> decide

theorem offset_lt (r : Reg) : r.offset < 64 := by cases r <;> decide

theorem offset_mod (r : Reg) : r.offset % 4 = 0 := by cases r <;> decide

/-- Every offset of the register window reaches a slot (R62). -/
theorem atOffset_in_window {off : Nat} (h : off < 64) :
    ∃ r, Reg.atOffset off = some r ∧ r.offset = off - off % 4 := by
  have hsome : ∀ x : Fin 64, (Reg.atOffset x).isSome := by decide
  obtain ⟨r, hr⟩ := Option.isSome_iff_exists.mp (hsome ⟨off, h⟩)
  refine ⟨r, hr, ?_⟩
  have hp := List.find?_some hr
  simpa using hp

/-- The address of a register slot reaches that slot. -/
theorem target_slot (c : Config) (r : Reg) : target c (c.regBase + r.offset) = .slot r r.offset := by
  have := offset_lt r
  simp [target, Config.windowBytes, this, atOffset_offset]

/-- The address of a buffer byte reaches that byte. -/
theorem target_buffer {c : Config} (h : c.wf = true) {a : Nat} (ha : a < c.bufBytes) :
    target c (c.bufBase + a) = .buffer a := by
  have hw := wf_facts h
  have h1 : ¬(c.regBase ≤ c.bufBase + a ∧ c.bufBase + a < c.regBase + Config.windowBytes) := by
    unfold Config.windowBytes
    omega
  simp [target, h1, ha]

/-- A 32-bit access at a register slot's address raises no bus error. -/
theorem busError_slot (c : Config) (r : Reg) : busError c 32 (.slot r r.offset) = none := by
  simp [busError, offset_mod]

/-- When an access raises no bus error (R68, R69). -/
theorem busError_none_iff {c : Config} (h : c.wf = true) (bits addr : Nat) :
    busError c bits (target c addr) = none ↔ accessLegal c bits addr := by
  have hw := wf_facts h
  unfold target accessLegal Config.windowBytes
  split
  · obtain ⟨r, h1, -⟩ := atOffset_in_window (off := addr - c.regBase) (by omega)
    simp only [h1, busError]
    split
    · simp
      omega
    · split <;> simp <;> omega
  · split
    · simp only [busError]
      split
      · simp
        omega
      · split
        · split
          · simp
            omega
          · split <;> simp <;> omega
        · simp
          omega
    · simp only [busError, reduceCtorEq, false_iff, not_or, not_and]
      refine ⟨fun _ _ _ => by omega, fun _ _ => ⟨fun hb => ?_, fun hb => ?_⟩⟩ <;> subst hb <;> omega

/-- A host access is the whole step. -/
theorem step_hostNext (s : State) (acc : Access) : step (hostNext s acc) = hostAccess acc s := rfl

end Sys2Proof.Machine
end

