-- ==== Sys2Proof/Laws/Bytes.lean ====
section
/-! SUPPORT. The laws of big-endian conversion (R11) and of the flag words (R28, R137). -/

namespace Sys2Proof.Machine

@[simp] theorem toBe32_length (v : Word) : (toBe32 v).length = 4 := rfl

@[simp] theorem tcBytes_length (v : Word) : (tcBytes v).length = 4 := rfl

/-- `be32` of four bytes is their concatenation, most significant first. -/
theorem be32_four (b0 b1 b2 b3 : Byte) :
    be32 [b0, b1, b2, b3] = ((b0 ++ b1 : BitVec 16) ++ b2 : BitVec 24) ++ b3 := by
  apply BitVec.eq_of_getLsbD_eq
  intro i hi
  simp only [be32, List.foldl_cons, List.foldl_nil, BitVec.getLsbD_or, BitVec.getLsbD_shiftLeft,
    BitVec.getLsbD_append, BitVec.getLsbD_setWidth]
  grind

/-- A word is the big-endian number of its bytes (R11). -/
theorem be32_toBe32 (v : Word) : be32 (toBe32 v) = v := by
  rw [toBe32, be32_four]
  apply BitVec.eq_of_getLsbD_eq
  intro i hi
  simp only [BitVec.getLsbD_append, BitVec.getLsbD_extractLsb']
  grind

/-- A byte sequence of four bytes is that of its big-endian number. -/
theorem toBe32_be32 {bs : List Byte} (h : bs.length = 4) : toBe32 (be32 bs) = bs := by
  match bs, h with
  | [b0, b1, b2, b3], _ =>
    rw [be32_four, toBe32]
    congr 1
    · apply BitVec.eq_of_getLsbD_eq
      intro i hi
      simp only [BitVec.getLsbD_append, BitVec.getLsbD_extractLsb']
      grind
    · congr 1
      · apply BitVec.eq_of_getLsbD_eq
        intro i hi
        simp only [BitVec.getLsbD_append, BitVec.getLsbD_extractLsb']
        grind
      · congr 1
        · apply BitVec.eq_of_getLsbD_eq
          intro i hi
          simp only [BitVec.getLsbD_append, BitVec.getLsbD_extractLsb']
          grind
        · congr 1
          apply BitVec.eq_of_getLsbD_eq
          intro i hi
          simp only [BitVec.getLsbD_append, BitVec.getLsbD_extractLsb']
          grind

end Sys2Proof.Machine
end

