-- ==== Sys2Proof/Laws/Commands.lean ====
section
/-! SUPPORT. What each command can do, said once: its outcomes with their guards. Proofs about `exec` cite these lemmas and
do not unfold the commands. -/

namespace Sys2Proof.Machine

/-- The state a successful CRC command completes. -/
def crcDone (init : Bool) (s : State) : State :=
  let c := crcFeed (if init then crcInit else s.crcAcc) (s.memRead s.src.toNat s.len.toNat)
  { s with crcAcc := c, crcOut := crcFinal c }

/-- The state a successful ENC completes. -/
def encDone (s : State) : State :=
  { s.memWrite s.dst.toNat (encRecord s) with
    crcAcc := encCrc s
    crcOut := crcFinal (encCrc s)
    dlen := s.len
    rlen := BitVec.ofNat 32 (s.len.toNat + 12)
    tcflags := tcFlags (tcBytes s.typ) }

/-- The state DEC completes on a checksum mismatch. -/
def decMismatch (s : State) : State :=
  { s with crcAcc := decCrc s, crcOut := crcFinal (decCrc s), crcDecl := decDecl s }

/-- The state a successful DEC completes. -/
def decDone (s : State) : State :=
  { s.memWrite s.dst.toNat (decData s) with
    typ := be32 (decType s)
    dlen := decLen s
    rlen := BitVec.ofNat 32 ((decLen s).toNat + 12)
    crcAcc := decCrc s
    crcOut := crcFinal (decCrc s)
    crcDecl := decDecl s
    tcflags := tcFlags (decType s) }

/-- Everything CRC can do. -/
theorem execCrc_eq (init : Bool) (s : State) :
    execCrc init s = .next (if spanOk s.cfg s.src.toNat s.len.toNat then (crcDone init s).completed .none
      else s.completed .range) := by
  unfold execCrc
  simp only [finish, raise]
  split <;> simp_all [crcDone]

/-- Everything TCCHK can do. -/
theorem execTcchk_eq (s : State) :
    execTcchk s = .next (if allAlpha (tcBytes s.typ) then
        State.completed { s with tcflags := tcFlags (tcBytes s.typ) } .none
      else State.completed { s with tcflags := 0#32 } .invalidTypeCode) := by
  unfold execTcchk
  simp only [finish, raise]
  split <;> simp_all

/-- Everything ENC can do, by the first test that fails. -/
theorem execEnc_eq (s : State) :
    execEnc s = .next (
      if !spanOk s.cfg s.src.toNat s.len.toNat then s.completed .range
      else if !allAlpha (tcBytes s.typ) then State.completed { s with tcflags := 0#32 } .invalidTypeCode
      else if !spanOk s.cfg s.dst.toNat (s.len.toNat + 12) then s.completed .range
      else if overlap s.src.toNat s.len.toNat s.dst.toNat (s.len.toNat + 12) then s.completed .overlap
      else (encDone s).completed .none) := by
  unfold execEnc
  simp only [finish, raise, encDone]
  split
  · rfl
  split
  · rfl
  split
  · rfl
  split <;> rfl

/-- Everything DEC can do, by the first test that fails. -/
theorem execDec_eq (s : State) :
    execDec s = .next (
      if !spanOk s.cfg s.src.toNat s.len.toNat then s.completed .range
      else if s.len.toNat < 8 then s.completed .truncatedInput
      else if !allAlpha (decType s) then State.completed { s with tcflags := 0#32 } .invalidTypeCode
      else if s.len.toNat < 12 + (decLen s).toNat then s.completed .truncatedInput
      else if crcFinal (decCrc s) ≠ decDecl s then (decMismatch s).completed .checksumMismatch
      else if !spanOk s.cfg s.dst.toNat (decLen s).toNat then s.completed .range
      else if overlap s.src.toNat ((decLen s).toNat + 12) s.dst.toNat (decLen s).toNat then s.completed .overlap
      else (decDone s).completed .none) := by
  unfold execDec
  simp only [finish, raise, decDone, decMismatch]
  split
  · rfl
  by_cases h8 : s.len.toNat < 8
  · simp only [h8, if_true, ite_self]
  have h4 : ¬ s.len.toNat < 4 := by omega
  simp only [h4, h8, if_false]
  split
  · rfl
  by_cases h12 : s.len.toNat < 12 + (decLen s).toNat
  · simp only [h12, if_true, ite_self]
  have hn : ¬ s.len.toNat < 8 + (decLen s).toNat := by omega
  simp only [hn, h12, if_false]
  split
  · rfl
  split
  · rfl
  split <;> rfl

/-- ENC's tests all pass. -/
structure EncOk (s : State) : Prop where
  data : s.src.toNat + s.len.toNat ≤ s.cfg.bufBytes
  alpha : allAlpha (tcBytes s.typ) = true
  record : s.dst.toNat + (s.len.toNat + 12) ≤ s.cfg.bufBytes
  apart : overlap s.src.toNat s.len.toNat s.dst.toNat (s.len.toNat + 12) = false

/-- DEC's tests all pass. -/
structure DecOk (s : State) : Prop where
  input : s.src.toNat + s.len.toNat ≤ s.cfg.bufBytes
  long : 12 + (decLen s).toNat ≤ s.len.toNat
  alpha : allAlpha (decType s) = true
  sum : crcFinal (decCrc s) = decDecl s
  output : s.dst.toNat + (decLen s).toNat ≤ s.cfg.bufBytes
  apart : overlap s.src.toNat ((decLen s).toNat + 12) s.dst.toNat (decLen s).toNat = false

theorem execEnc_of_ok {s : State} (h : EncOk s) : execEnc s = .next ((encDone s).completed .none) := by
  rw [execEnc_eq]
  simp [spanOk, h.data, h.alpha, h.record, h.apart]

theorem execDec_of_ok {s : State} (h : DecOk s) : execDec s = .next ((decDone s).completed .none) := by
  have h8 : ¬ s.len.toNat < 8 := by have := h.long; omega
  have h12 : ¬ s.len.toNat < 12 + (decLen s).toNat := by have := h.long; omega
  rw [execDec_eq]
  simp only [h8, h12, if_false]
  simp [spanOk, h.input, h.alpha, h.sum, h.output, h.apart]

/-- ENC completes without error where its tests pass. -/
theorem exec_enc_of_ok {s : State} (h : EncOk s) : exec .enc s = .next ((encDone s).completed .none) := execEnc_of_ok h

/-- DEC completes without error where its tests pass. -/
theorem exec_dec_of_ok {s : State} (h : DecOk s) : exec .dec s = .next ((decDone s).completed .none) := execDec_of_ok h

/-- A successful ENC has passed its tests. -/
theorem execEnc_ok {s t : State} (h : execEnc s = .next t) (ht : t.status.errcode = .none) :
    EncOk s ∧ t = (encDone s).completed .none := by
  rw [execEnc_eq] at h
  injection h with h
  subst h
  split at ht
  · cases ht
  split at ht
  · cases ht
  split at ht
  · cases ht
  split at ht
  · cases ht
  · rename_i h1 h2 h3 h4
    have hok : EncOk s := by
      simp only [Bool.not_eq_true', Bool.not_eq_true, Bool.not_eq_false] at h1 h2 h3 h4
      exact ⟨by simpa [spanOk] using h1, h2, by simpa [spanOk] using h3, h4⟩
    refine ⟨hok, ?_⟩
    simp [spanOk, hok.data, hok.alpha, hok.record, hok.apart]

/-- A successful DEC has passed its tests. -/
theorem execDec_ok {s t : State} (h : execDec s = .next t) (ht : t.status.errcode = .none) :
    DecOk s ∧ t = (decDone s).completed .none := by
  have hok : DecOk s := by
    rw [execDec_eq] at h
    injection h with h
    subst h
    split at ht
    · cases ht
    split at ht
    · cases ht
    split at ht
    · cases ht
    split at ht
    · cases ht
    split at ht
    · cases ht
    split at ht
    · cases ht
    split at ht
    · cases ht
    · rename_i h1 h2 h3 h4 h5 h6 h7
      simp only [Bool.not_eq_true', Bool.not_eq_true, Bool.not_eq_false, not_not] at h1 h3 h5 h6 h7
      exact ⟨by simpa [spanOk] using h1, by omega, h3, h5, by simpa [spanOk] using h6, h7⟩
  refine ⟨hok, ?_⟩
  rw [execDec_of_ok hok] at h
  injection h with h
  exact h.symm

end Sys2Proof.Machine
end

