-- ==== Sys2Proof/Laws/Crc.lean ====
section
/-! SUPPORT. The laws of the CRC-32 function: it chains, its round is linear over XOR and loses nothing. -/

namespace Sys2Proof.Machine

@[simp] theorem crcFeed_nil (c : Word) : crcFeed c [] = c := rfl

@[simp] theorem crcFeed_cons (c : Word) (b : Byte) (bs : List Byte) :
    crcFeed c (b :: bs) = crcFeed (crcUpdate c b) bs := rfl

/-- Feeding a concatenation is feeding its parts in order (R117). -/
theorem crcFeed_append (c : Word) (a b : List Byte) : crcFeed c (a ++ b) = crcFeed (crcFeed c a) b := by
  induction a generalizing c with
  | nil => rfl
  | cons x a ih => exact ih _

/-- A round is linear over XOR. -/
theorem crcShift_xor (x y : Word) : crcShift (x ^^^ y) = crcShift x ^^^ crcShift y := by
  unfold crcShift
  rw [BitVec.getLsbD_xor]
  cases x.getLsbD 0 <;> cases y.getLsbD 0 <;>
    simp only [Bool.bne_false, Bool.bne_true, Bool.not_true, Bool.not_false, Bool.false_eq_true, if_true, if_false,
      BitVec.ushiftRight_xor_distrib] <;>
    ext i hi <;> simp <;> grind

theorem crcShift_iterate_xor (k : Nat) (x y : Word) : crcShift^[k] (x ^^^ y) = crcShift^[k] x ^^^ crcShift^[k] y := by
  induction k generalizing x y with
  | zero => rfl
  | succ k ih => rw [Function.iterate_succ_apply, Function.iterate_succ_apply, Function.iterate_succ_apply, crcShift_xor, ih]

/-- A round maps only 0 to 0. -/
theorem crcShift_eq_zero {x : Word} (h : crcShift x = 0#32) : x = 0#32 := by
  have hbit : ∀ i, i < 32 → (crcShift x).getLsbD i = false := fun i _ => by simp [h]
  have h31 := hbit 31 (by omega)
  unfold crcShift at h31 hbit
  split at hbit
  · rename_i h0
    simp [h0, crcPoly] at h31
  · rename_i h0
    apply BitVec.eq_of_getLsbD_eq
    intro i hi
    cases i with
    | zero => simpa using h0
    | succ i =>
      have := hbit i (by omega)
      rw [BitVec.getLsbD_ushiftRight, Nat.add_comm] at this
      simpa using this

theorem crcShift_iterate_eq_zero (k : Nat) {x : Word} (h : crcShift^[k] x = 0#32) : x = 0#32 := by
  induction k generalizing x with
  | zero => exact h
  | succ k ih => exact crcShift_eq_zero (ih h)

/-- Two byte steps agree only on registers whose difference is the difference of the bytes. -/
theorem crcUpdate_inj {c c' : Word} {b b' : Byte} (h : crcUpdate c b = crcUpdate c' b') :
    c ^^^ c' = b.setWidth 32 ^^^ b'.setWidth 32 := by
  unfold crcUpdate at h
  have h0 : crcShift^[8] ((c ^^^ b.setWidth 32) ^^^ (c' ^^^ b'.setWidth 32)) = 0#32 := by
    rw [crcShift_iterate_xor, h, BitVec.xor_self]
  have h1 := crcShift_iterate_eq_zero 8 h0
  have h2 : c ^^^ c' ^^^ (b.setWidth 32 ^^^ b'.setWidth 32) = 0#32 := by
    rw [← h1]
    ext i hi
    simp
    grind
  exact BitVec.xor_eq_zero_iff.mp h2

/-- The byte step loses nothing of the register. -/
theorem crcUpdate_left_inj {c c' : Word} {b : Byte} (h : crcUpdate c b = crcUpdate c' b) : c = c' := by
  have := crcUpdate_inj h
  rw [BitVec.xor_self] at this
  exact BitVec.xor_eq_zero_iff.mp this

theorem crcFeed_left_inj (bs : List Byte) {c c' : Word} (h : crcFeed c bs = crcFeed c' bs) : c = c' := by
  induction bs generalizing c c' with
  | nil => exact h
  | cons b bs ih => exact crcUpdate_left_inj (ih h)

end Sys2Proof.Machine
end

