-- ==== Sys2Proof/Laws/PerInstr.lean ====
section
/-! SUPPORT. What holds of every command as syntax, one lemma per constructor. -/

namespace Sys2Proof.Laws.EncodeWf

/-- The word of a well-formed command obeys the format CMD32 field by field (R90, R91, R95). -/
def Statement (i : Instr) : Prop := i.wf = true → cmdWordWf (encode i) = true

theorem crc (init : Bool) : Statement (.crc init) := by
  cases init <;> exact fun _ => by decide

theorem tcchk : Statement .tcchk := fun _ => by decide

theorem enc : Statement .enc := fun _ => by decide

theorem dec : Statement .dec := fun _ => by decide

end Sys2Proof.Laws.EncodeWf
end

