-- ==== Sys2Proof/Laws/Step.lean ====
section
/-! SUPPORT. Everything a step can do, said once. Invariants and whole-machine rules follow from `step_cases` by a short
case analysis. -/

namespace Sys2Proof.Machine

/-- Every command answers a next state (R231). -/
theorem exec_answers (i : Instr) (s : State) : ∃ t, exec i s = .next t := by
  cases i <;> simp only [exec, execCrc_eq, execTcchk_eq, execEnc_eq, execDec_eq] <;> exact ⟨_, rfl⟩

/-- A command's next state is a completion, by a code that is not ILLEGAL_COMMAND, of a state that has kept the
parameters, the operands, STATUS, CMD and the model's own fields. -/
theorem exec_cases {i : Instr} {s t : State} (h : exec i s = .next t) :
    ∃ u e, t = State.completed u e ∧ e ≠ .illegalCommand ∧ u.status = s.status ∧ u.cfg = s.cfg ∧ u.cmd = s.cmd ∧
      u.src = s.src ∧ u.len = s.len ∧ u.dst = s.dst ∧ u.agenda = s.agenda ∧ u.resp = s.resp := by
  cases i <;> simp only [exec, execCrc_eq, execTcchk_eq, execEnc_eq, execDec_eq] at h <;> injection h with h <;>
    subst h <;> (repeat' split) <;> exact ⟨_, _, rfl, by decide, rfl, rfl, rfl, rfl, rfl, rfl, rfl, rfl⟩

/-- The ENGINE's step is a completion of a state that has kept STATUS, the parameters and CMD. -/
theorem engineStep_cases (s : State) :
    ∃ u e, engineStep s = .next (State.completed u e) ∧ u.status = s.status ∧ u.cfg = s.cfg ∧ u.cmd = s.cmd := by
  unfold engineStep
  split
  · rename_i i _
    obtain ⟨t, ht⟩ := exec_answers i s
    obtain ⟨u, e, rfl, -, h1, h2, h3, -⟩ := exec_cases ht
    exact ⟨u, e, ht, h1, h2, h3⟩
  · exact ⟨s, _, rfl, rfl, rfl, rfl⟩

/-- A host read changes nothing but the model's own record of it (R72). -/
theorem hostRead_frame (bits : Nat) (t : Target) (s : State) :
    ∃ r d, hostRead bits t s = { s with resp := r, draws := d } := by
  unfold hostRead
  split
  · exact ⟨_, _, rfl⟩
  · split <;> exact ⟨_, _, rfl⟩
  · exact ⟨_, _, rfl⟩

/-- The one address of a register slot, where an access raises no bus error. -/
theorem target_slot_inv {c : Config} {bits addr off : Nat} {r : Reg} (h : target c addr = .slot r off)
    (hb : busError c bits (.slot r off) = none) : bits = 32 ∧ addr = c.regBase + r.offset := by
  unfold target Config.windowBytes at h
  split at h
  · rename_i hr
    obtain ⟨q, h1, h2⟩ := atOffset_in_window (off := addr - c.regBase) (by omega)
    simp only [h1, Target.slot.injEq] at h
    obtain ⟨rfl, rfl⟩ := h
    simp only [busError] at hb
    split at hb
    · cases hb
    · split at hb
      · cases hb
      · omega
  · split at h <;> cases h

/-- A buffer address is inside the buffer. -/
theorem target_buffer_inv {c : Config} {addr a : Nat} (h : target c addr = .buffer a) : a < c.bufBytes := by
  unfold target at h
  split at h
  · split at h <;> cases h
  · split at h
    · simp only [Target.buffer.injEq] at h
      omega
    · cases h

/-- The step on the ENGINE's turn. -/
theorem step_engineNext {s : State} (h : engineNext s) : step s = engineTurn { s with agenda := s.agenda.tail } := by
  obtain ⟨_, _, _, _, _, _, _, _, _, _, _, _, _, _, agenda, _, _⟩ := s
  rcases h with rfl | h
  · rfl
  · cases agenda with
    | nil => cases h
    | cons x xs =>
      cases h
      rfl

/-- Everything a step can do: the ENGINE's step, an idle turn of the ENGINE, a reset, a host read, a write while BUSY, a
register write while idle, a buffer write while idle. -/
theorem step_cases {s t : State} (h : step s = .next t) :
    (engineNext s ∧ s.status.busy = true ∧ engineStep { s with agenda := s.agenda.tail } = .next t) ∨
    (engineNext s ∧ s.status.busy = false ∧ t = { s with agenda := s.agenda.tail }) ∨
    (∃ rest, s.agenda = .reset :: rest ∧ t = State.applyReset { s with agenda := rest }) ∨
    (∃ bits addr rest r d, s.agenda = .host (.read bits addr) :: rest ∧
      t = { s with agenda := rest, resp := r, draws := d }) ∨
    (∃ bits addr v rest, s.agenda = .host (.write bits addr v) :: rest ∧ s.status.busy = true ∧
      t = (State.overrun { s with agenda := rest }).respond .written) ∨
    (∃ r v rest, s.agenda = .host (writeSlot s.cfg r v) :: rest ∧ s.status.busy = false ∧
      t = (State.writeReg { s with agenda := rest } v r).respond .written) ∨
    (∃ bits addr v rest a bs, s.agenda = .host (.write bits addr v) :: rest ∧ s.status.busy = false ∧
      a + bs.length ≤ s.cfg.bufBytes ∧ t = (State.memWrite { s with agenda := rest } a bs).respond .written) := by
  by_cases hn : engineNext s
  · rw [step_engineNext hn, engineTurn] at h
    split at h
    · rename_i hb
      exact .inl ⟨hn, hb, h⟩
    · rename_i hb
      injection h with h
      exact .inr (.inl ⟨hn, by simpa using hb, h.symm⟩)
  · right
    right
    unfold step at h
    split at h
    · rename_i ha
      exact absurd (.inl ha) hn
    · rename_i ha
      exact absurd (.inr (by simp [ha])) hn
    · rename_i acc rest ha
      right
      simp only [hostAccess] at h
      split at h
      · cases h
      · rename_i hbe
        cases acc with
        | read bits addr =>
          injection h with h
          obtain ⟨r, d, hr⟩ := hostRead_frame bits (target s.cfg addr) { s with agenda := rest }
          exact .inl ⟨bits, addr, rest, r, d, ha, by rw [← h, ← hr]; rfl⟩
        | write bits addr v =>
          right
          injection h with h
          simp only [Access.addr, Access.bits] at hbe h
          unfold hostWrite at h
          split at h
          · rename_i hb
            exact .inl ⟨bits, addr, v, rest, ha, hb, h.symm⟩
          · rename_i hb
            have hidle : s.status.busy = false := by simpa using hb
            right
            split at h
            · rename_i r off ht
              rw [ht] at hbe
              obtain ⟨rfl, rfl⟩ := target_slot_inv ht hbe
              exact .inl ⟨r, v, rest, ha, hidle, h.symm⟩
            · rename_i a ht
              have hlt : a < s.cfg.bufBytes := target_buffer_inv ht
              rw [ht] at hbe
              right
              split at h
              · exact ⟨bits, addr, v, rest, a, [v.setWidth 8], ha, hidle, hlt, h.symm⟩
              · rename_i h8
                refine ⟨bits, addr, v, rest, a, toBe32 v, ha, hidle, ?_, h.symm⟩
                simp only [busError, h8, if_false] at hbe
                split at hbe
                · split at hbe
                  · cases hbe
                  · split at hbe
                    · cases hbe
                    · simp only [toBe32_length]
                      omega
                · cases hbe
            · rename_i ht
              rw [ht] at hbe
              cases hbe
    · rename_i rest ha
      injection h with h
      exact .inl ⟨rest, ha, h.symm⟩

end Sys2Proof.Machine
end

