-- ==== Sys2Proof/Tests/Slice0.lean ====
section
/-! SUPPORT. The session's own tests, from the vectors of 95_test_vectors.md, and the witnesses: for every statement with
hypotheses a concrete state that meets them all. -/

namespace Sys2Proof.Tests

open Sys2Proof.Machine

/-! ### Ill-formed terms, one per check of WellFormed.lean -/

theorem test_wf_refuses_low_reserved : cmdLowReservedOk 0x00000010#32 = false := by decide
theorem test_wf_refuses_high_reserved : cmdHighReservedOk 0x00000201#32 = false := by decide
theorem test_wf_refuses_op : cmdOpOk 0x00000005#32 = false ∧ cmdOpOk 0x00000000#32 = false := by decide
theorem test_wf_refuses_init : cmdInitOk 0x00000102#32 = false := by decide
theorem test_wf_refuses_word : cmdWordWf 0x80000001#32 = false := by decide
theorem test_wf_refuses_small_buffer : Config.wf { Config.sample with bufBytes := 11 } = false := by decide
theorem test_wf_refuses_misaligned_base : Config.wf { Config.sample with regBase := 2 } = false := by decide
theorem test_wf_refuses_overlapping_windows : Config.wf { Config.sample with bufBase := 60 } = false := by decide
theorem test_wf_refuses_wide_byte : Access.wf (.write 8 256 0x100#32) = false := by decide
/-- The command type admits no ill-formed term (R93). -/
theorem test_wf_accepts_every_command : ∀ i ∈ [Instr.crc true, .crc false, .tcchk, .enc, .dec], i.wf = true := by decide

/-! ### Decoding: the words of R98 and R90 written out bit by bit, and W1 to W10 -/

theorem test_decode_crc : decode 0b00000000000000000000000000000001#32 = .command (.crc false) := by decide
theorem test_decode_crc_init : decode 0b00000000000000000000000100000001#32 = .command (.crc true) := by decide
theorem test_decode_tcchk : decode 0b00000000000000000000000000000010#32 = .command .tcchk := by decide
theorem test_decode_enc : decode 0b00000000000000000000000000000011#32 = .command .enc := by decide
theorem test_decode_dec : decode 0b00000000000000000000000000000100#32 = .command .dec := by decide
theorem test_decode_rejects_zero : decode 0x00000000#32 = .illegal := by decide
theorem test_decode_rejects_init_on_enc : decode 0x00000103#32 = .illegal := by decide
theorem test_decode_rejects_bit_31 : decode 0x80000001#32 = .illegal := by decide
theorem test_encode_crc_init : encode (.crc true) = 0x00000101#32 := by decide
theorem test_table_word : decodeTableWord 32 0x101 = some (.crc true) ∧ decodeTableWord 32 5 = none := by decide

/-! ### Small states -/

/-- A field of the next state, if there is one. -/
def field {α : Type} (f : State → α) : Host.Outcome State Fault Refusal → Option α
  | .next t => some (f t)
  | .fault _ => none
  | .refused _ => none

/-- The error code of the next state. -/
def code (o : Host.Outcome State Fault Refusal) : Option ErrCode := field (fun t => t.status.errcode) o

/-- The machine after reset with `bs` at `a`. -/
def stored (a : Nat) (bs : List Byte) : State := State.reset.memWrite a bs

/-- "123456789". -/
def digits : List Byte := [0x31#8, 0x32#8, 0x33#8, 0x34#8, 0x35#8, 0x36#8, 0x37#8, 0x38#8, 0x39#8]

/-- The IEND record (E10). -/
def iend : List Byte :=
  [0x00#8, 0x00#8, 0x00#8, 0x00#8, 0x49#8, 0x45#8, 0x4E#8, 0x44#8, 0xAE#8, 0x42#8, 0x60#8, 0x82#8]

/-- The record of "Rust" with data "ab" (N4, D30). -/
def rust : List Byte :=
  [0x00#8, 0x00#8, 0x00#8, 0x02#8, 0x52#8, 0x75#8, 0x73#8, 0x74#8, 0x61#8, 0x62#8, 0x34#8, 0x9E#8, 0xF2#8, 0x8C#8]

/-- "Rust" with data "ac" and the checksum of "ab". -/
def rustTampered : List Byte :=
  [0x00#8, 0x00#8, 0x00#8, 0x02#8, 0x52#8, 0x75#8, 0x73#8, 0x74#8, 0x61#8, 0x63#8, 0x34#8, 0x9E#8, 0xF2#8, 0x8C#8]

/-- "Ru1t" where the type code stands (D12). -/
def ru1t : List Byte :=
  [0x00#8, 0x00#8, 0x00#8, 0x00#8, 0x52#8, 0x75#8, 0x31#8, 0x74#8, 0x00#8, 0x00#8, 0x00#8, 0x00#8]

/-- N4's operands: "ab" at 0, the record to 0x10. -/
def encState : State := { stored 0 [0x61#8, 0x62#8] with typ := 0x52757374#32, len := 2#32, dst := 0x10#32 }

/-- D30's operands: the record at 0, the data to 0x40. -/
def decState : State := { stored 0 rust with len := 14#32, dst := 0x40#32 }

/-- A command word pending. -/
def pending (w : Word) : State := State.reset.acceptCommand w

/-! ### CRC (C6, C18, C20, C22) -/

theorem test_crc32_check : crc32 digits = 0xCBF43926#32 := by decide +kernel
theorem test_execCrc_digits : field (fun t => (t.crcAcc, t.crcOut)) (exec (.crc true) { stored 0 digits with len := 9#32 }) =
    some (0x340BC6D9#32, 0xCBF43926#32) := by decide +kernel
theorem test_execCrc_continue : field (fun t => (t.crcAcc, t.crcOut))
    (exec (.crc false) { State.reset with crcAcc := 0x12345678#32 }) = some (0x12345678#32, 0xEDCBA987#32) := by decide

/-! ### TCCHK (T5, T22) -/

theorem test_execTcchk_flags : field (fun t => (t.tcflags, t.status.word))
    (exec .tcchk { State.reset with typ := 0x52757374#32 }) = some (0x13#32, 0x00#32) := by decide +kernel
theorem test_execTcchk_invalid : field (fun t => (t.tcflags, t.status.word))
    (exec .tcchk { State.reset with typ := 0x40414243#32, tcflags := 0x3B#32 }) = some (0#32, 0x12#32) := by
  decide +kernel

/-! ### ENC (N4, N13) -/

theorem test_execEnc_record : field (fun t => (t.memRead 0x10 14, t.rlen, t.tcflags, t.crcAcc)) (exec .enc encState) =
    some (rust, 14#32, 0x13#32, 0xCB610D73#32) := by decide +kernel
theorem test_execEnc_overlap : field (fun t => (t.mem, t.status.word)) (exec .enc { encState with dst := 1#32 }) =
    some (encState.mem, 0x52#32) := by decide +kernel

/-! ### DEC (D30, D15 as a change of data) -/

theorem test_execDec_record : field (fun t => (t.memRead 0x40 2, t.typ, t.dlen, t.rlen, t.tcflags)) (exec .dec decState) =
    some ([0x61#8, 0x62#8], 0x52757374#32, 2#32, 14#32, 0x13#32) := by decide +kernel
theorem test_execDec_mismatch : field (fun t => (t.crcDecl, t.status.word, t.typ, t.mem))
    (exec .dec { stored 0 rustTampered with len := 14#32, dst := 0x40#32 }) =
    some (0x349EF28C#32, 0x32#32, 0#32, (stored 0 rustTampered).mem) := by decide +kernel

/-! ### The bus and the order of steps (B2, B3, B8, B10, B11, B12) -/

/-- What the bus answers to the last of a list of turns. -/
def answer (ts : List Turn) : Option (Option Response) := field State.resp (runTurns ts State.reset)

theorem test_status_busy : answer (turns Config.sample [.wr .cmd 0x101#32, .rd .status]) =
    some (some (.word 0x01#32)) := by decide +kernel
theorem test_write_while_busy : answer (turns Config.sample [.wr .cmd 0x101#32, .wr .src 5#32, .rd .status]) =
    some (some (.word 0x05#32)) := by decide +kernel
theorem test_ovr_survives_completion : answer (turns Config.sample [.wr .cmd 0x101#32, .wr .src 5#32] ++
    Asm.poll Config.sample 0) = some (some (.word 0x04#32)) := by decide +kernel
theorem test_bus_error_byte_register : field State.resp (hostAccess (.read 8 8) State.reset) = none := by decide +kernel
theorem test_word_then_byte : answer (turns Config.sample [.ww 4 0x49454E44#32, .rb 6]) =
    some (some (.byte 0x4E#8)) := by decide +kernel
theorem test_bytes_then_word : answer (turns Config.sample (Asm.wbytes 8 [0xAE#8, 0x42#8, 0x60#8, 0x82#8] ++ [.rw 8])) =
    some (some (.word 0xAE426082#32)) := by decide +kernel
theorem test_fetch_word_runs : code (step (State.reset.withFetchWord 32 2)) = some .invalidTypeCode ∧
    code (step (State.reset.withFetchWord 32 5)) = some .illegalCommand := by decide +kernel

/-! ### The host procedures (E3, E4, E7, P6) -/

/-- The chunk of the IEND record. -/
def iendChunk : Chunk :=
  { length := 0#32, typeCode := [0x49#8, 0x45#8, 0x4E#8, 0x44#8], data := [], checksum := 0xAE426082#32 }

theorem test_container_decode : (Container.decodeOn 1 (signature ++ iend) State.reset).1 =
    .ok (Container.fromChunks [iendChunk]) := by decide +kernel
theorem test_container_encode :
    (Container.encodeHeldOn 0 signature [⟨iendChunk, none⟩, ⟨iendChunk, some iend⟩] State.reset).1 =
      .ok (signature ++ iend ++ iend) := by decide +kernel
theorem test_container_empty : Container.decode 256 signature = .ok (Container.fromChunks []) := by decide +kernel
theorem test_container_signature : Container.decode 256 (0x88#8 :: signature.tail) = .error .badSignature := by
  decide +kernel
/-- A record that fills the buffer, with a bad type code: DEC's own error, although its data has no room (R255). -/
theorem test_chunk_decode_full : (chunkDecodeOn 0 [0#8, 0#8, 0#8, 4#8, 0x30#8, 0x41#8, 0x41#8, 0x41#8, 1#8, 2#8, 3#8, 4#8, 0#8, 0#8, 0#8, 0#8]
    (State.resetOf { bufBytes := 16, regBase := 0, bufBase := 64 })).1 = .error .invalidTypeCode := by decide +kernel
/-- `2N + 12` is one more than the buffer (R265). -/
theorem test_new_encode_capacity : (chunkNewEncodeOn 0 [0x41#8, 0x41#8, 0x41#8, 0x41#8] [1#8, 2#8, 3#8]
    (State.resetOf { bufBytes := 17, regBase := 0, bufBase := 64 })).1 = .error .capacity := by decide +kernel
/-- N4 by the host procedure, with DLEN and CRC_OUT (R251). -/
theorem test_new_encode : (chunkNewEncodeOn 0 [0x52#8, 0x75#8, 0x73#8, 0x74#8] [0x61#8, 0x62#8] State.reset).1 =
    .ok { record := rust, length := 2#32, checksum := 0x349EF28C#32 } := by decide +kernel
theorem test_text : utf8Decode [0x61#8, 0xC3#8, 0xA9#8] = some [0x61, 0xE9] ∧ utf8Decode [0xC0#8, 0x80#8] = none := by
  decide +kernel

/-! ### Witnesses: the hypotheses of the statements, met by concrete states -/

theorem witness_BigEndianConversion : ([0x52#8, 0x75#8, 0x53#8, 0x74#8] : List Byte).length = 4 := by decide

theorem witness_EncodeDecodeAgree : (Instr.crc true).wf = true ∧ decode 0x101#32 = .command (.crc true) := by decide

theorem witness_DecodeByFields : decode 0x101#32 = .command (.crc true) := by decide

theorem witness_ResetValues : ∃ s : State, s.status.busy = true ∧ s.agenda = .reset :: [] :=
  ⟨{ pending 0x101#32 with agenda := [.reset] }, by decide, by decide⟩

theorem witness_legal_parameters : Config.sample.wf = true ∧ Config.sample.sizeOk = true ∧
    Config.wf { bufBytes := 12, regBase := 12, bufBase := 0 } = true := by decide

/-- A state with a command pending has the invariant. -/
theorem pending_inv (w : Word) : StateInv (pending w) :=
  ⟨by show Config.sample.wf = true; decide, List.Pairwise.nil, fun _ h => absurd h (List.not_mem_nil), rfl, fun _ => rfl,
    by show tcflagsOk 0#32; unfold tcflagsOk; decide, .inl ⟨rfl, rfl⟩⟩

theorem witness_InvariantKeptByStep : ∃ s t, StateInv s ∧ step s = .next t ∧ s.status.busy ≠ t.status.busy :=
  ⟨pending 0x101#32, _, pending_inv _, rfl, by decide +kernel⟩

theorem witness_ConstantsKept : State.reset.cfg.sizeOk = true ∧ ∃ t, step (pending 2#32) = .next t :=
  ⟨by decide, _, rfl⟩

/-- Hypotheses of RegisterAccessWhileIdle and RegisterMap. -/
theorem witness_RegisterAccessWhileIdle : State.reset.cfg.wf = true ∧ State.reset.status.busy = false ∧
    Reg.id.access = .ro ∧ Reg.rsv3c.access = .razwi ∧ Reg.crcAcc.access = .rw := by decide

theorem witness_CommandWriteAccepted : State.reset.cfg.wf = true ∧ State.reset.status.busy = false ∧
    engineNext ((State.reset.acceptCommand 3#32).respond .written) := ⟨by decide, by decide, .inl rfl⟩

theorem witness_OvrIsSticky_set : ∃ s t, step s = .next t ∧ s.status.ovr = false ∧ t.status.ovr = true :=
  ⟨hostNext (pending 1#32) (writeSlot Config.sample .src 5#32), (pending 1#32).overrun.respond .written, rfl, rfl, rfl⟩

theorem witness_OvrIsSticky_command : ∃ s t, step s = .next t ∧ s.status.ovr = true ∧ t.status.ovr = false :=
  ⟨hostNext State.reset.overrun (writeSlot Config.sample .cmd 1#32),
    (State.reset.overrun.acceptCommand 1#32).respond .written, rfl, rfl, rfl⟩

theorem witness_OvrIsSticky_reset : ∃ s t, step s = .next t ∧ s.status.ovr = true ∧ t.status.ovr = false :=
  ⟨{ State.reset.overrun with agenda := [.reset] }, State.applyReset { State.reset.overrun with agenda := [] }, rfl, rfl, rfl⟩

/-- Hypotheses of WritesWhileBusyIgnored, ReadsWhileBusy and BusErrorsExactly: legal accesses at the ends of both windows, and
one of each kind of bus error. -/
theorem witness_busy_accesses : (pending 1#32).cfg.wf = true ∧ (pending 1#32).status.busy = true ∧
    accessLegal (pending 1#32).cfg 32 0x3C ∧ accessLegal (pending 1#32).cfg 8 511 ∧
    ¬ accessLegal (pending 1#32).cfg 16 256 ∧ ¬ accessLegal (pending 1#32).cfg 32 258 ∧
    ¬ accessLegal (pending 1#32).cfg 32 512 ∧ ¬ accessLegal (pending 1#32).cfg 8 8 := by
  refine ⟨by decide, by decide, ?_, ?_, ?_, ?_, ?_, ?_⟩ <;>
    simp [accessLegal, pending, State.reset, State.resetOf, Config.sample]

theorem witness_BufferAccessWhileIdle : State.reset.cfg.wf = true ∧ State.reset.status.busy = false ∧
    255 < State.reset.cfg.bufBytes ∧ 252 % 4 = 0 ∧ 252 + 4 ≤ State.reset.cfg.bufBytes := by decide

theorem witness_CrcCommandResult : (State.reset.cfg.bufBytes < 250 + 7) ∧ (256 + 0 ≤ State.reset.cfg.bufBytes) := by
  decide

theorem witness_CrcChaining : ∃ bs t, CrcChain bs t ∧ bs = digits.take 4 ++ (digits.drop 4).take 5 := by
  have h1 := CrcChain.start (s := { stored 0 digits with len := 4#32 }) (t := _) rfl (by decide +kernel)
  have h2 := CrcChain.between (t := { stored 0 digits with
    src := 4#32, len := 5#32, crcAcc := 0x641C1F5C#32, crcOut := 0x9BE3E0A3#32 }) h1 (by decide +kernel)
    (by decide +kernel)
  exact ⟨_, _, CrcChain.continue h2 rfl (by decide +kernel), by decide +kernel⟩

theorem witness_FirstCrcAfterReset : State.reset.crcAcc = 0xFFFFFFFF#32 := by decide

theorem witness_TypeCodeFlagBits : allAlpha [0x52#8, 0x75#8, 0x73#8, 0x74#8] = true ∧
    allAlpha [0x5B#8, 0x61#8, 0x62#8, 0x63#8] = false := by decide

theorem witness_LetterCaseBit : alpha 0x41#8 = true ∧ alpha 0x7A#8 = true := by decide

theorem witness_TcchkResult : allAlpha (tcBytes 0x5A5A5A5A#32) = true ∧ allAlpha (tcBytes 0#32) = false := by
  decide +kernel

/-- ENC's five cases, each at a boundary (N10, N11, N12, N13, N4). -/
theorem witness_EncResult :
    code (exec .enc { State.reset with src := 250#32, len := 10#32 }) = some .range ∧
    code (exec .enc { State.reset with typ := 0x52753174#32, len := 4#32, dst := 250#32 }) = some .invalidTypeCode ∧
    code (exec .enc { State.reset with typ := 0x49454E44#32, dst := 245#32 }) = some .range ∧
    code (exec .enc { encState with dst := 1#32 }) = some .overlap ∧
    code (exec .enc { State.reset with typ := 0x49454E44#32, dst := 244#32 }) = some .none := by decide +kernel

theorem witness_EncWritesExactlyTheRecord : ∃ t, exec .enc encState = .next t ∧ t.status.errcode = .none :=
  ⟨_, rfl, by decide +kernel⟩

/-- DEC's cases, each at a boundary (D20, D6, D12, D8, D15, D23, D24, D22). -/
theorem witness_DecResult :
    code (exec .dec { State.reset with src := 250#32, len := 12#32 }) = some .range ∧
    code (exec .dec { decState with len := 7#32 }) = some .truncatedInput ∧
    code (exec .dec { stored 0 ru1t with len := 8#32 }) = some .invalidTypeCode ∧
    code (exec .dec { decState with len := 13#32 }) = some .truncatedInput ∧
    code (exec .dec { stored 0 rustTampered with len := 14#32 }) = some .checksumMismatch ∧
    code (exec .dec { decState with dst := 255#32 }) = some .range ∧
    code (exec .dec { decState with dst := 8#32 }) = some .overlap ∧
    code (exec .dec { decState with dst := 14#32 }) = some .none ∧
    code (exec .dec { stored 0 iend with len := 12#32, dst := 256#32 }) = some .none := by decide +kernel

/-- D30 passes every test of DEC. -/
theorem decState_ok : DecOk decState :=
  ⟨by decide, by decide +kernel, by decide +kernel, by decide +kernel, by decide +kernel, by decide +kernel⟩

/-- A DEC that succeeds: DecLeavesTheChunk, RecordLengthRegister, CommandsWriteOnlyTheirRegisters, ErrorCodesByCommand. -/
theorem witness_dec_success : exec .dec decState = .next ((decDone decState).completed .none) :=
  exec_dec_of_ok decState_ok

/-- A DEC that raises an error: DecLeavesTheChunk, NoPartialResult, RecordLengthRegister. -/
theorem witness_dec_error : ∃ t, exec .dec { decState with len := 7#32 } = .next t ∧ t.status.errcode ≠ .none :=
  ⟨_, rfl, by decide +kernel⟩

theorem witness_DecRefinesChunkDecode : decState.src.toNat + decState.len.toNat ≤ decState.cfg.bufBytes := by decide

/-- N4 and D30 are each other's round trip. -/
theorem witness_EncodeThenDecode : ∃ s s1 r : State, exec .enc s = .next s1 ∧ s1.status.errcode = .none ∧
    r.cfg = s1.cfg ∧ r.mem = s1.mem ∧ r.src = s.dst ∧ r.len.toNat = s.len.toNat + 12 ∧
    r.dst.toNat + s.len.toNat ≤ r.cfg.bufBytes ∧
    overlap r.src.toNat (s.len.toNat + 12) r.dst.toNat s.len.toNat = false :=
  ⟨encState, (encDone encState).completed .none,
    { (encDone encState).completed .none with src := 0x10#32, len := 14#32, dst := 0x1E#32 },
    rfl, rfl, rfl, rfl, rfl, by decide, by decide, by decide⟩

theorem witness_DecodeThenEncode : ∃ s s1 r : State, exec .dec s = .next s1 ∧ s1.status.errcode = .none ∧
    r.cfg = s1.cfg ∧ r.mem = s1.mem ∧ r.typ = s1.typ ∧ r.src = s.dst ∧ r.len = s1.dlen ∧
    r.dst.toNat + (s1.dlen.toNat + 12) ≤ r.cfg.bufBytes ∧
    overlap r.src.toNat s1.dlen.toNat r.dst.toNat (s1.dlen.toNat + 12) = false :=
  ⟨decState, _, { (decDone decState).completed .none with src := 0x40#32, len := 2#32, dst := 0xF2#32 },
    witness_dec_success, rfl, rfl, rfl, rfl, rfl, by decide +kernel, by decide +kernel, by decide +kernel⟩

/-- The record `rust` with its byte `i` replaced by `x`. -/
def tampered (i : Nat) (x : Byte) : State := { stored 0 (rust.set i x) with len := 14#32, dst := 0x40#32 }

/-- The first and the last type-code byte made no letter, the last one another letter, and the first and last data byte
changed. -/
theorem witness_OneByteTamperDetected : ∀ ix ∈ [(4, 0x31#8), (7, 0x7B#8), (7, 0x75#8), (8, 0x00#8), (9, 0x63#8)],
    ∃ s t : State, exec .dec s = .next t ∧
      t.status.errcode = .none ∧ (tampered ix.1 ix.2).cfg = s.cfg ∧ (tampered ix.1 ix.2).src = s.src ∧
      (tampered ix.1 ix.2).len = s.len ∧ 4 ≤ ix.1 ∧ ix.1 < 8 + t.dlen.toNat ∧
      ix.2 ≠ s.readByte (s.src.toNat + ix.1) ∧
      ∀ j < s.len.toNat, (tampered ix.1 ix.2).readByte (s.src.toNat + j) =
        if j = ix.1 then ix.2 else s.readByte (s.src.toNat + j) := by
  intro ix hix
  refine ⟨decState, _, witness_dec_success, rfl, ?_⟩
  revert ix
  decide +kernel

theorem test_tamper_codes : code (exec .dec (tampered 4 0x31#8)) = some .invalidTypeCode ∧
    code (exec .dec (tampered 7 0x75#8)) = some .checksumMismatch := by decide +kernel

/-- For each outcome of a DEC with its whole record in its span: success, CHECKSUM_MISMATCH, RANGE, OVERLAP and
INVALID_TYPE_CODE, with another LEN and another byte after the record. -/
theorem witness_BytesAfterTheRecordIgnored :
    ∀ sc ∈ [(decState, ErrCode.none), (tampered 9 0x63#8, .checksumMismatch), ({ decState with dst := 255#32 }, .range),
      ({ decState with dst := 8#32 }, .overlap), (tampered 4 0x31#8, .invalidTypeCode)],
    code (exec .dec sc.1) = some sc.2 ∧ (be32 (sc.1.memRead sc.1.src.toNat 4)).toNat = 2 ∧ 2 + 12 ≤ sc.1.len.toNat ∧
      sc.1.src.toNat + sc.1.len.toNat ≤ sc.1.cfg.bufBytes ∧
      ({ sc.1 with len := 20#32 }.memWrite 14 [0xAA#8]).memRead sc.1.src.toNat (2 + 12) =
        sc.1.memRead sc.1.src.toNat (2 + 12) := by decide +kernel

theorem witness_OutcomesDependOnInputsOnly : ∃ s s' t t' : State, exec .enc s = .next t ∧ t.status.errcode = .none ∧
    exec .enc s' = .next t' ∧ t'.status.errcode = .none ∧ s'.typ = s.typ ∧ s'.dst ≠ s.dst ∧
    s'.memRead s'.src.toNat s'.len.toNat = s.memRead s.src.toNat s.len.toNat :=
  ⟨encState, { encState with dst := 0x80#32 }, _, _, rfl, by decide +kernel, rfl, by decide +kernel, rfl,
    by decide, rfl⟩

theorem witness_CrcOutIsComplement : ∃ s t, exec (.crc true) s = .next t ∧ t.status.errcode = .none ∧
    t.crcOut = t.crcAcc ^^^ 0xFFFFFFFF#32 ∧ 0#32 ≠ t.crcAcc :=
  ⟨State.reset, _, rfl, by decide +kernel, by decide +kernel, by decide +kernel⟩

theorem witness_IllegalCommandCompletes : (pending 0x80000001#32).status.busy = true ∧
    engineNext (pending 0x80000001#32) ∧ decode (pending 0x80000001#32).cmd = .illegal :=
  ⟨by decide, .inl rfl, by decide⟩

theorem witness_StepRunsTheDecodedCommand : (pending 0x101#32).status.busy = true ∧ engineNext (pending 0x101#32) ∧
    decode (pending 0x101#32).cmd = .command (.crc true) := ⟨by decide, .inl rfl, by decide⟩

theorem witness_EveryCommandCompletes_idle : State.reset.status.busy = false ∧
    engineNext { State.reset with agenda := [.engine] } := ⟨by decide, .inr rfl⟩

theorem witness_LifecycleTransitions : ∃ s t, step s = .next t ∧ s.status.busy = false ∧ t.status.busy = true :=
  ⟨hostNext State.reset (writeSlot Config.sample .cmd 1#32), (State.reset.acceptCommand 1#32).respond .written,
    rfl, rfl, rfl⟩

theorem witness_PendingCommandUntouchedByHost : ∃ t, (pending 1#32).status.busy = true ∧
    step (hostNext (pending 1#32) (writeSlot Config.sample .len 7#32)) = .next t := ⟨_, rfl, rfl⟩

theorem witness_MixedWidthView : State.reset.cfg.wf = true ∧ State.reset.status.busy = false ∧ 0 % 4 = 0 ∧
    0 + 4 ≤ State.reset.cfg.bufBytes := by decide

theorem witness_ReadReturnsLastWrite : (stored 3 [0x5A#8]).mem.get? 3 = some 0x5A#8 := by decide

theorem witness_NoPartialResult : ∃ t, exec .tcchk State.reset = .next t ∧ t.status.errcode = .invalidTypeCode :=
  ⟨_, rfl, by decide +kernel⟩

theorem witness_EveryCommandCompletes_busy : (pending 4#32).status.busy = true ∧ engineNext (pending 4#32) :=
  ⟨by decide, .inl rfl⟩

theorem witness_LifecycleTransitions_busy : ∃ s t, step s = .next t ∧ s.status.busy = true ∧ t.status.busy = false :=
  ⟨pending 2#32, _, rfl, rfl, by decide +kernel⟩

end Sys2Proof.Tests
end

section
/-! The two statements of 00_scope.md: big-endian conversion (R11), and the span and overlap tests (R13). -/

namespace Sys2Proof.Machine

/-! ### Big-endian conversion (R11) -/

/-- `be32` reads its bytes in base 256: they are the digits of the concatenation `be32_four`. -/
theorem be32_four_toNat (b0 b1 b2 b3 : Byte) : (be32 [b0, b1, b2, b3]).toNat =
    b0.toNat * 2 ^ 24 + b1.toNat * 2 ^ 16 + b2.toNat * 2 ^ 8 + b3.toNat := by
  have digit (x : Nat) (b : Byte) : x <<< 8 ||| b.toNat = x * 2 ^ 8 + b.toNat := by
    rw [← Nat.shiftLeft_add_eq_or_of_lt b.isLt, Nat.shiftLeft_eq]
  rw [be32_four]
  simp only [BitVec.toNat_append, digit]
  omega

/-- Settles O1: the base-256 reading of `be32`, the definition of `to_be32`, and the two round-trip laws. -/
theorem bigEndianConversion : Obligations.BigEndianConversion :=
  ⟨be32_four_toNat, fun _ => rfl, be32_toBe32, fun _ => toBe32_be32⟩

/-! ### The span and overlap tests (R13) -/

theorem spanOk_iff (c : Config) (a n : Nat) : spanOk c a n = true ↔ a + n ≤ c.bufBytes := by
  simp [spanOk]

theorem overlap_iff (a m b n : Nat) : overlap a m b n = true ↔ m > 0 ∧ n > 0 ∧ a < b + n ∧ b < a + m := by
  simp [overlap, and_assoc]

/-- Two overlapping ranges share the byte at the later of their two starts. -/
theorem overlap_iff_exists_mem_both (a m b n : Nat) :
    overlap a m b n = true ↔ ∃ x, (a ≤ x ∧ x < a + m) ∧ (b ≤ x ∧ x < b + n) := by
  rw [overlap_iff]
  constructor
  · rintro ⟨hm, hn, hab, hba⟩
    exact ⟨max a b, by omega, by omega⟩
  · rintro ⟨x, ⟨hax, hxa⟩, hbx, hxb⟩
    omega

/-- Settles O2: the two tests as their comparisons, overlap as a shared byte, and `tc_bytes` by definition. -/
theorem spanAndOverlapTests : Obligations.SpanAndOverlapTests :=
  ⟨spanOk_iff, overlap_iff, overlap_iff_exists_mem_both, fun _ => rfl⟩

end Sys2Proof.Machine
end

section
/-! The statements of 10_state.md: the register map (R20 to R22, R39), CMD (R23), STATUS (R26 to R28), RLEN (R37) and the
two CRC registers (R47). Three layers come first: a register slot read and written by name, a host access to a slot as a
step, and the outcomes of the commands. -/

namespace Sys2Proof.Machine

/-! ### Two STATUS words (R20, R23) -/

theorem Status.word_reset : Status.word { busy := false, err := false, ovr := false, errcode := .none } = 0#32 := by
  decide

theorem Status.word_accepted : Status.word { busy := true, err := false, ovr := false, errcode := .none } = 1#32 := by
  decide

/-! ### Register slots by name (R20, R21) -/

theorem access_eq_rw_iff (r : Reg) :
    r.access = .rw ↔ r = .src ∨ r = .len ∨ r = .dst ∨ r = .typ ∨ r = .crcAcc := by
  cases r <;> decide

namespace State

theorem readReg_of_razwi (s : State) {r : Reg} (h : r.access = .razwi) : s.readReg r = 0#32 := by
  revert h
  cases r <;> simp [Reg.access, readReg]

theorem writeReg_of_readOnly (s : State) (v : Word) {r : Reg} (h : r.access = .ro ∨ r.access = .razwi) :
    s.writeReg v r = s := by
  revert h
  cases r <;> simp [Reg.access, writeReg]

/-- Only the launching write of CMD touches STATUS. -/
theorem writeReg_status_of_ne_cmd (s : State) (v : Word) {r : Reg} (h : r ≠ .cmd) :
    (s.writeReg v r).status = s.status := by
  revert h
  cases r <;> simp [writeReg]

/-- What any slot reads after a write to an RW slot. -/
theorem readReg_writeReg_of_rw (s : State) (v : Word) {r : Reg} (h : r.access = .rw) (q : Reg) :
    (s.writeReg v r).readReg q = if q = r then v else s.readReg q := by
  rcases (access_eq_rw_iff r).mp h with rfl | rfl | rfl | rfl | rfl <;> cases q <;> rfl

/-- The bus's answer is not in any register. -/
@[simp] theorem readReg_respond (s : State) (x : Response) (r : Reg) : (s.respond x).readReg r = s.readReg r := by
  cases r <;> rfl

/-- BUSY = 0: every slot reads its register. -/
theorem hostReadReg_of_idle {s : State} (h : s.status.busy = false) (r : Reg) : s.hostReadReg r = s.readReg r := by
  simp [hostReadReg, h]

/-- BUFSIZE has room for every legal size (R7, R39). -/
theorem readReg_bufsize_toNat {s : State} (h : s.cfg.sizeOk = true) :
    (s.readReg .bufsize).toNat = s.cfg.bufBytes := by
  simp only [Config.sizeOk, Bool.and_eq_true, decide_eq_true_eq] at h
  simp only [readReg, BitVec.toNat_ofNat]
  omega

end State

/-! ### Host accesses to a register slot as steps -/

/-- A read of a register slot raises no bus error and is answered. -/
theorem step_readSlot (s : State) (r : Reg) : step (hostNext s (readSlot s.cfg r)) =
    .next { s with resp := some (.word (s.hostReadReg r)), draws := s.draws + 1 } := by
  rw [step_hostNext]
  simp only [hostAccess, readSlot, Access.addr, Access.bits, target_slot, busError_slot]
  rfl

theorem hostAccess_writeSlot_of_idle {s : State} (h : s.status.busy = false) (r : Reg) (v : Word) :
    hostAccess (writeSlot s.cfg r v) s = .next ((s.writeReg v r).respond .written) := by
  simp [hostAccess, writeSlot, Access.addr, Access.bits, target_slot, busError_slot, hostWrite, h]

/-- While BUSY = 0 a write of a register slot is performed. -/
theorem step_writeSlot_of_idle {s : State} (h : s.status.busy = false) (r : Reg) (v : Word) :
    step (hostNext s (writeSlot s.cfg r v)) = .next ((s.writeReg v r).respond .written) := by
  rw [step_hostNext, hostAccess_writeSlot_of_idle h]

/-- While BUSY = 1 a write that raises no bus error sets OVR and does nothing else, wherever it goes. -/
theorem hostAccess_write_of_busy {s t : State} {bits addr : Nat} {v : Word} (h : s.status.busy = true)
    (ht : hostAccess (.write bits addr v) s = .next t) : t = s.overrun.respond .written := by
  simp only [hostAccess, hostWrite, h, if_true] at ht
  split at ht
  · cases ht
  · injection ht with ht
    exact ht.symm

theorem step_of_agenda_host {s : State} {acc : Access} {rest : List Turn} (h : s.agenda = .host acc :: rest) :
    step s = hostAccess acc { s with agenda := rest } := by
  simp only [step, h]

theorem step_of_agenda_reset {s : State} {rest : List Turn} (h : s.agenda = .reset :: rest) :
    step s = .next (State.applyReset { s with agenda := rest }) := by
  simp only [step, h]

/-- With a command pending, the ENGINE's turn is its step. -/
theorem step_of_busy {s : State} (hn : engineNext s) (hb : s.status.busy = true) :
    step s = engineStep { s with agenda := s.agenda.tail } := by
  rw [step_engineNext hn, engineTurn, if_pos hb]

/-! ### ID, BUFSIZE and the parameters (R22, R39) -/

theorem step_keeps_cfg {s t : State} (h : step s = .next t) : t.cfg = s.cfg := by
  obtain ⟨-, -, he⟩ | ⟨-, -, rfl⟩ | ⟨_, -, rfl⟩ | ⟨_, _, _, _, _, -, rfl⟩ | ⟨_, _, _, _, -, -, rfl⟩ |
    ⟨_, _, _, -, -, rfl⟩ | ⟨_, _, _, _, _, _, -, -, -, rfl⟩ := step_cases h
  case inl =>
    obtain ⟨u, e, hu, -, hcfg, -⟩ := engineStep_cases { s with agenda := s.agenda.tail }
    rw [hu] at he
    injection he with he
    rw [← he]
    exact hcfg
  all_goals simp

/-- Settles O9: ID is a constant and BUFSIZE a function of the parameters, which every step keeps. -/
theorem constantsKept : Obligations.ConstantsKept := by
  intro s
  refine ⟨rfl, State.readReg_bufsize_toNat, fun t h => ?_⟩
  have hcfg := step_keeps_cfg h
  exact ⟨hcfg, rfl, by simp only [State.readReg, hcfg]⟩

/-! ### Register accesses while BUSY = 0 (R20, R21) -/

/-- Settles O10: a slot's access is one step, and `readReg` and `writeReg` say what it does by the slot's kind. -/
theorem registerAccessWhileIdle : Obligations.RegisterAccessWhileIdle := by
  intro s r v _ hidle
  have hwrite := step_writeSlot_of_idle hidle r v
  refine ⟨⟨s.draws + 1, ?_⟩, s.readReg_of_razwi, fun hro => ?_, fun hrw => ⟨_, hwrite, ?_, fun q hq => ?_, ?_⟩⟩
  · rw [step_readSlot, State.hostReadReg_of_idle hidle]
  · rw [hwrite, s.writeReg_of_readOnly v hro]
    rfl
  · simp [State.readReg_writeReg_of_rw s v hrw]
  · simp [State.readReg_writeReg_of_rw s v hrw, hq]
  · have hne : r ≠ .cmd := by
      rintro rfl
      cases hrw
    simp [State.writeReg_status_of_ne_cmd s v hne]

/-- A host read at a slot's literal offset while BUSY = 0, for a list of offsets and values that is the slots in order. -/
theorem step_read_offset_of_idle {s : State} (h : s.status.busy = false) {ov : Nat × Word}
    (hov : ov ∈ Reg.all.map (fun r => (r.offset, s.readReg r))) :
    ∃ n, step (hostNext s (.read 32 (s.cfg.regBase + ov.1))) =
      .next { s with resp := some (.word ov.2), draws := n } := by
  obtain ⟨r, -, rfl⟩ := List.mem_map.mp hov
  exact ⟨s.draws + 1, by rw [← State.hostReadReg_of_idle h]; exact step_readSlot s r⟩

/-- The slots a host write leaves alone (R20's RO and RAZ/WI rows). -/
def readOnlySlots : List Reg :=
  [.id, .status, .crcOut, .crcDecl, .dlen, .rlen, .tcflags, .bufsize, .rsv38, .rsv3c]

theorem access_of_mem_readOnlySlots : ∀ r ∈ readOnlySlots, r.access = .ro ∨ r.access = .razwi := by decide

/-- Settles O49: the literal offsets are those of the slots in the order of `Reg.all`, and each access is a step on its
slot. -/
theorem registerMap : Obligations.RegisterMap := by
  refine ⟨fun c _ ov hov => step_read_offset_of_idle (s := State.resetOf c) rfl ?_, fun s _ hidle =>
    ⟨fun ov hov => step_read_offset_of_idle hidle hov, fun v => ?_⟩⟩
  · simpa only [Reg.all, List.map, Reg.offset, State.readReg, State.resetOf, Status.word_reset, Config.idValue] using hov
  have hwrite (r : Reg) := step_writeSlot_of_idle hidle r v
  refine ⟨hwrite .cmd, hwrite .src, hwrite .len, hwrite .dst, hwrite .typ, hwrite .crcAcc, fun off hoff => ?_⟩
  obtain ⟨r, hr, rfl⟩ : ∃ r ∈ readOnlySlots, r.offset = off := List.mem_map.mp hoff
  have hsame := s.writeReg_of_readOnly v (access_of_mem_readOnlySlots r hr)
  exact (hwrite r).trans (by rw [hsame]; rfl)

/-! ### CMD (R23) -/

/-- Settles O11: the write is `acceptCommand`, and the ENGINE's turn then decodes CMD. -/
theorem commandWriteAccepted : Obligations.CommandWriteAccepted := by
  refine ⟨fun s w _ hidle => ⟨_, step_writeSlot_of_idle hidle .cmd w, rfl, rfl, Status.word_accepted, fun hn => ?_⟩,
    fun _ => rfl⟩
  rw [step_of_busy hn rfl]
  rfl

/-! ### STATUS (R26 to R28) -/

/-- A truth value stands in its own bit alone. -/
theorem getLsbD_flagBit (p : Bool) (k : Nat) {i : Nat} (hi : i < 32) :
    (flagBit p k).getLsbD i = (decide (i = k) && p) := by
  simp only [flagBit, BitVec.getLsbD_shiftLeft, BitVec.getLsbD_setWidth, BitVec.getLsbD_ofBool]
  grind

/-- Every bit of STATUS (R28). -/
theorem Status.getLsbD_word (t : Status) {i : Nat} (hi : i < 32) : t.word.getLsbD i =
    (decide (i = 0) && t.busy || decide (i = 1) && t.err || decide (i = 2) && t.ovr ||
      decide (4 ≤ i) && t.errcode.num.getLsbD (i - 4)) := by
  simp only [Status.word, BitVec.getLsbD_or, getLsbD_flagBit _ _ hi, BitVec.getLsbD_shiftLeft, BitVec.getLsbD_setWidth]
  grind

/-- Bits 7:4 of STATUS are ERRCODE. -/
theorem Status.extractLsb'_word_errcode (t : Status) : t.word.extractLsb' 4 4 = t.errcode.num := by
  apply BitVec.eq_of_getLsbD_eq
  intro i hi
  rw [BitVec.getLsbD_extractLsb', t.getLsbD_word (by omega)]
  simp [hi]
  omega

/-- Bits 31:8 of STATUS are 0: ERRCODE ends at bit 7. -/
theorem Status.extractLsb'_word_high (t : Status) : t.word.extractLsb' 8 24 = 0#24 := by
  apply BitVec.eq_of_getLsbD_eq
  intro i hi
  have hnum : t.errcode.num.getLsbD (8 + i - 4) = false := BitVec.getLsbD_of_ge _ _ (by omega)
  rw [BitVec.getLsbD_extractLsb', t.getLsbD_word (by omega), hnum]
  simp
  omega

theorem ErrCode.num_toNat_le (e : ErrCode) : e.num.toNat ≤ 6 := by
  cases e <;> decide

/-- Settles O12: the fields by their bits, and the code numbers by definition. -/
theorem statusWordFields : Obligations.StatusWordFields := by
  intro t
  have hbit (i : Nat) (hi : i < 32) := t.getLsbD_word hi
  exact ⟨by simpa using hbit 0, by simpa using hbit 1, by simpa using hbit 2, by simpa using hbit 3,
    t.extractLsb'_word_errcode, t.extractLsb'_word_high, t.errcode.num_toNat_le, rfl, rfl, rfl, rfl, rfl, rfl, rfl⟩

/-- Everything a step can do to OVR: keep it, set it by a write while BUSY = 1, or clear it by a CMD write while BUSY = 0
or a reset. -/
theorem step_ovr_cases {s t : State} (h : step s = .next t) :
    t.status.ovr = s.status.ovr ∨
    (t.status.ovr = true ∧ s.status.busy = true ∧
      ∃ bits addr v rest, s.agenda = .host (.write bits addr v) :: rest) ∨
    (t.status.ovr = false ∧
      ((s.status.busy = false ∧ ∃ w rest, s.agenda = .host (writeSlot s.cfg .cmd w) :: rest) ∨
        ∃ rest, s.agenda = .reset :: rest)) := by
  obtain ⟨-, -, he⟩ | ⟨-, -, rfl⟩ | ⟨rest, ha, rfl⟩ | ⟨_, _, _, _, _, -, rfl⟩ | ⟨bits, addr, v, rest, ha, hb, rfl⟩ |
    ⟨r, v, rest, ha, hb, rfl⟩ | ⟨_, _, _, _, _, _, -, -, -, rfl⟩ := step_cases h
  · obtain ⟨u, e, hu, hstatus, -⟩ := engineStep_cases { s with agenda := s.agenda.tail }
    rw [hu] at he
    injection he with he
    left
    rw [← he, State.completed_status_ovr, hstatus]
  · exact .inl rfl
  · exact .inr (.inr ⟨rfl, .inr ⟨rest, ha⟩⟩)
  · exact .inl rfl
  · exact .inr (.inl ⟨rfl, hb, bits, addr, v, rest, ha⟩)
  · by_cases hr : r = .cmd
    · subst hr
      exact .inr (.inr ⟨rfl, .inl ⟨hb, v, rest, ha⟩⟩)
    · left
      rw [State.respond_status, State.writeReg_status_of_ne_cmd _ v hr]
  · exact .inl rfl

/-- Settles O13: `step_ovr_cases` tells who changes OVR; that each of the three does is its own step. -/
theorem ovrIsSticky : Obligations.OvrIsSticky := by
  intro s t h
  have hcases := step_ovr_cases h
  refine ⟨fun h0 h1 => ?_, fun h1 h0 => ?_, fun bits addr v rest hb ha => ?_, fun w rest hb ha => ?_, fun rest ha => ?_⟩
  · obtain hkeep | ⟨-, hset⟩ | ⟨hclear, -⟩ := hcases
    · simp [h0, h1] at hkeep
    · exact hset
    · simp [h1] at hclear
  · obtain hkeep | ⟨hset, -⟩ | ⟨-, hclear⟩ := hcases
    · simp [h0, h1] at hkeep
    · simp [h0] at hset
    · exact hclear
  · rw [step_of_agenda_host ha] at h
    exact hostAccess_write_of_busy (s := { s with agenda := rest }) hb h
  · rw [step_of_agenda_host ha] at h
    have hwrite := hostAccess_writeSlot_of_idle (s := { s with agenda := rest }) hb .cmd w
    injection hwrite.symm.trans h with ht
    rw [← ht]
    rfl
  · rw [step_of_agenda_reset ha] at h
    injection h with ht
    rw [← ht]
    rfl

/-! ### The outcomes of the commands -/

/-- The codes by which a command ends with nothing written but STATUS (R200). -/
def plainErrors : Instr → List ErrCode
  | .crc _ => [.range]
  | .tcchk => []
  | .enc => [.range, .overlap]
  | .dec => [.range, .truncatedInput, .overlap]

theorem ne_of_mem_plainErrors {i : Instr} :
    ∀ e ∈ plainErrors i, e ≠ .none ∧ e ≠ .checksumMismatch := by
  cases i <;> simp [plainErrors]

/-- The next states of command `i` in state `s`, one constructor for each set of registers that an outcome writes. -/
inductive CommandOutcome (s : State) : Instr → State → Prop where
  | plainError {i : Instr} {e : ErrCode} : e ∈ plainErrors i → CommandOutcome s i (s.completed e)
  | badTypeCode {i : Instr} : i = .tcchk ∨ i = .enc ∨ i = .dec →
      CommandOutcome s i (State.completed { s with tcflags := 0#32 } .invalidTypeCode)
  | crcDone (init : Bool) : CommandOutcome s (.crc init) ((crcDone init s).completed .none)
  | tcchkDone : CommandOutcome s .tcchk (State.completed { s with tcflags := tcFlags (tcBytes s.typ) } .none)
  | encDone : EncOk s → CommandOutcome s .enc ((encDone s).completed .none)
  | decMismatch : CommandOutcome s .dec ((decMismatch s).completed .checksumMismatch)
  | decDone : DecOk s → CommandOutcome s .dec ((decDone s).completed .none)

theorem execCrc_outcome {init : Bool} {s t : State} (h : execCrc init s = .next t) :
    CommandOutcome s (.crc init) t := by
  rw [execCrc_eq] at h
  injection h with h
  subst h
  split
  · exact .crcDone init
  · exact .plainError (List.mem_singleton.mpr rfl)

theorem execTcchk_outcome {s t : State} (h : execTcchk s = .next t) : CommandOutcome s .tcchk t := by
  rw [execTcchk_eq] at h
  injection h with h
  subst h
  split
  · exact .tcchkDone
  · exact .badTypeCode (.inl rfl)

theorem execEnc_outcome {s t : State} (h : execEnc s = .next t) : CommandOutcome s .enc t := by
  by_cases hok : t.status.errcode = .none
  · obtain ⟨hs, rfl⟩ := execEnc_ok h hok
    exact .encDone hs
  · rw [execEnc_eq] at h
    injection h with h
    subst h
    revert hok
    split
    · exact fun _ => .plainError (by decide)
    split
    · exact fun _ => .badTypeCode (.inr (.inl rfl))
    split
    · exact fun _ => .plainError (by decide)
    split
    · exact fun _ => .plainError (by decide)
    · exact fun hok => absurd rfl hok

theorem execDec_outcome {s t : State} (h : execDec s = .next t) : CommandOutcome s .dec t := by
  by_cases hok : t.status.errcode = .none
  · obtain ⟨hs, rfl⟩ := execDec_ok h hok
    exact .decDone hs
  · rw [execDec_eq] at h
    injection h with h
    subst h
    revert hok
    split
    · exact fun _ => .plainError (by decide)
    split
    · exact fun _ => .plainError (by decide)
    split
    · exact fun _ => .badTypeCode (.inr (.inr rfl))
    split
    · exact fun _ => .plainError (by decide)
    split
    · exact fun _ => .decMismatch
    split
    · exact fun _ => .plainError (by decide)
    split
    · exact fun _ => .plainError (by decide)
    · exact fun hok => absurd rfl hok

/-- Everything a command can do. -/
theorem exec_outcome {i : Instr} {s t : State} (h : exec i s = .next t) : CommandOutcome s i t := by
  cases i with
  | crc init => exact execCrc_outcome h
  | tcchk => exact execTcchk_outcome h
  | enc => exact execEnc_outcome h
  | dec => exact execDec_outcome h

/-! ### RLEN (R37) -/

/-- A record length that fits a legal buffer fits RLEN. -/
theorem toNat_ofNat_recordLength {c : Config} (hc : c.sizeOk = true) {n : Nat} (hn : n + 12 ≤ c.bufBytes) :
    (BitVec.ofNat 32 (n + 12)).toNat = n + 12 := by
  simp only [Config.sizeOk, Bool.and_eq_true, decide_eq_true_eq] at hc
  simp only [BitVec.toNat_ofNat]
  omega

/-- The record of a successful ENC fits the buffer. -/
theorem EncOk.record_le {s : State} (h : EncOk s) : s.len.toNat + 12 ≤ s.cfg.bufBytes := by
  have := h.record
  omega

/-- The record of a successful DEC fits the buffer: it is in the input span. -/
theorem DecOk.record_le {s : State} (h : DecOk s) : (decLen s).toNat + 12 ≤ s.cfg.bufBytes := by
  have := h.input
  have := h.long
  omega

/-- Settles O38: of the commands' outcomes, ENC's and DEC's successes alone write RLEN, with the length of a record that
fits the buffer. -/
theorem recordLengthRegister : Obligations.RecordLengthRegister := by
  refine ⟨fun i s t hc h hok => ?_, fun i s t h hno => ?_, fun _ => rfl⟩
  · obtain ⟨hi, he⟩ := hok
    cases exec_outcome h with
    | plainError hmem => exact absurd he (ne_of_mem_plainErrors _ hmem).1
    | badTypeCode => cases he
    | crcDone => simp at hi
    | tcchkDone => simp at hi
    | encDone hs => exact ⟨toNat_ofNat_recordLength hc hs.record_le, hs.record_le⟩
    | decMismatch => cases he
    | decDone hs => exact ⟨toNat_ofNat_recordLength hc hs.record_le, hs.record_le⟩
  · cases exec_outcome h with
    | encDone => exact absurd ⟨.inl rfl, rfl⟩ hno
    | decDone => exact absurd ⟨.inr rfl, rfl⟩ hno
    | _ => rfl

/-! ### CRC_ACC and CRC_OUT (R47) -/

/-- Settles O39: the outcomes that write CRC_ACC are a CRC that succeeds, ENC's and DEC's successes, and DEC's mismatch, and
each of them writes CRC_OUT as the complement. -/
theorem crcOutIsComplement : Obligations.CrcOutIsComplement := by
  refine ⟨fun i s t h hi he => ?_, fun i s t h hne => ?_, fun s v hs hv hbad => ?_⟩
  · cases exec_outcome h with
    | plainError hmem => exact absurd he (not_or.mpr (ne_of_mem_plainErrors _ hmem))
    | badTypeCode => simp at he
    | tcchkDone => exact absurd rfl hi
    | crcDone | encDone | decMismatch | decDone => rfl
  · cases exec_outcome h with
    | plainError | badTypeCode | tcchkDone => exact absurd rfl hne
    | crcDone | encDone | decDone => exact ⟨by simp, .inl rfl⟩
    | decMismatch => exact ⟨by simp, .inr rfl⟩
  · have hxor : s.crcAcc ^^^ 0xFFFFFFFF#32 = v ^^^ 0xFFFFFFFF#32 := hs.symm.trans hbad
    exact hv ((BitVec.xor_left_inj _).mp hxor).symm

end Sys2Proof.Machine
end

section
/-! The statements of 20_memory.md: when a host access is a bus error (R68, R69), what the buffer's accesses do while
BUSY = 0 (R66, R67), and that words and bytes of the buffer agree (R73). Two layers come first: a legal access by what it
reaches, and the buffer statements of R97 as turns of a run. -/

namespace Sys2Proof.Machine

/-! ### Host accesses by legality (R68, R69) -/

theorem hostAccess_read_of_legal {s : State} (hc : s.cfg.wf = true) {bits addr : Nat}
    (hl : accessLegal s.cfg bits addr) :
    hostAccess (.read bits addr) s = .next (hostRead bits (target s.cfg addr) s) := by
  have hnone := (busError_none_iff hc bits addr).mpr hl
  simp only [hostAccess, Access.bits, Access.addr, hnone]

theorem hostAccess_write_of_legal {s : State} (hc : s.cfg.wf = true) {bits addr : Nat}
    (hl : accessLegal s.cfg bits addr) (v : Word) :
    hostAccess (.write bits addr v) s = .next (hostWrite bits (target s.cfg addr) v s) := by
  have hnone := (busError_none_iff hc bits addr).mpr hl
  simp only [hostAccess, Access.bits, Access.addr, hnone]

theorem hostAccess_faults_of_not_legal {s : State} (hc : s.cfg.wf = true) {acc : Access}
    (hl : ¬ accessLegal s.cfg acc.bits acc.addr) : ∃ f, hostAccess acc s = .fault f := by
  have hsome := mt (busError_none_iff hc acc.bits acc.addr).mp hl
  obtain ⟨f, hf⟩ := Option.ne_none_iff_exists'.mp hsome
  exact ⟨f, by simp only [hostAccess, hf]⟩

/-- Settles O16: `busError` is none exactly on the legal accesses, and a read or write without one is performed. -/
theorem busErrorsExactly : Obligations.BusErrorsExactly := by
  intro s acc hc
  rw [step_hostNext]
  refine ⟨fun hl => ?_, hostAccess_faults_of_not_legal hc⟩
  cases acc with
  | read bits addr => exact ⟨_, hostAccess_read_of_legal hc hl⟩
  | write bits addr v => exact ⟨_, hostAccess_write_of_legal hc hl v⟩

/-! ### Buffer accesses while BUSY = 0 (R66, R67) -/

theorem accessLegal_bufferByte {c : Config} {a : Nat} (ha : a < c.bufBytes) : accessLegal c 8 (c.bufBase + a) :=
  .inr ⟨by omega, by omega, .inl rfl⟩

theorem accessLegal_bufferWord {c : Config} {a : Nat} (h4 : a % 4 = 0) (ha : a + 4 ≤ c.bufBytes) :
    accessLegal c 32 (c.bufBase + a) :=
  .inr ⟨by omega, by omega, .inr ⟨rfl, by omega⟩⟩

section Idle

variable {s : State} {a : Nat} (hc : s.cfg.wf = true) (hidle : s.status.busy = false)
include hc hidle

theorem hostAccess_readByte_of_idle (ha : a < s.cfg.bufBytes) : hostAccess (.read 8 (s.cfg.bufBase + a)) s =
    .next { s with resp := some (.byte (s.readByte a)), draws := s.draws + 1 } := by
  rw [hostAccess_read_of_legal hc (accessLegal_bufferByte ha), target_buffer hc ha]
  simp [hostRead, State.hostReadByte, hidle, State.respond]

theorem hostAccess_writeByte_of_idle (ha : a < s.cfg.bufBytes) (v : Word) :
    hostAccess (.write 8 (s.cfg.bufBase + a) v) s = .next ((s.memWrite a [v.setWidth 8]).respond .written) := by
  rw [hostAccess_write_of_legal hc (accessLegal_bufferByte ha), target_buffer hc ha]
  simp [hostWrite, hidle]

theorem hostAccess_readWord_of_idle (h4 : a % 4 = 0) (ha : a + 4 ≤ s.cfg.bufBytes) :
    hostAccess (.read 32 (s.cfg.bufBase + a)) s =
      .next { s with resp := some (.word (be32 (s.memRead a 4))), draws := s.draws + 1 } := by
  rw [hostAccess_read_of_legal hc (accessLegal_bufferWord h4 ha), target_buffer hc (by omega)]
  simp [hostRead, State.hostReadWord, hidle, State.respond]

theorem hostAccess_writeWord_of_idle (h4 : a % 4 = 0) (ha : a + 4 ≤ s.cfg.bufBytes) (v : Word) :
    hostAccess (.write 32 (s.cfg.bufBase + a) v) s = .next ((s.memWrite a (toBe32 v)).respond .written) := by
  rw [hostAccess_write_of_legal hc (accessLegal_bufferWord h4 ha), target_buffer hc (by omega)]
  simp [hostWrite, hidle]

end Idle

/-- Settles O17: each access is one step with its next state, and the memory laws say which bytes a write sets. -/
theorem bufferAccessWhileIdle : Obligations.BufferAccessWhileIdle := by
  intro s a v hc hidle
  simp only [step_hostNext]
  refine ⟨fun ha => ⟨⟨_, hostAccess_readByte_of_idle hc hidle ha⟩, ?_⟩,
    fun h4 ha => ⟨⟨_, hostAccess_readWord_of_idle hc hidle h4 ha⟩, ?_⟩⟩
  · exact ⟨_, hostAccess_writeByte_of_idle hc hidle ha v, rfl, fun x => Memory.get?_set s.mem a x _⟩
  · exact ⟨_, hostAccess_writeWord_of_idle hc hidle h4 ha v, rfl, Memory.get?_write (toBe32 v) s.mem a⟩

/-! ### Words and bytes of the buffer agree (R73) -/

/-- Byte `i` of a word, counted from the most significant (R11). -/
theorem toBe32_getElem? (v : Word) {i : Nat} (hi : i < 4) : (toBe32 v)[i]? = some (v.extractLsb' (24 - 8 * i) 8) := by
  interval_cases i <;> rfl

/-- What a span write left is read back, whatever else the state holds. -/
theorem State.memRead_of_mem_eq_write {t : State} {m : Memory} {a : Nat} {bs : List Byte} (h : t.mem = m.write a bs) :
    t.memRead a bs.length = bs := by
  refine memRead_of_get? fun i hi => ?_
  rw [h, Memory.get?_write, if_pos (by omega), Nat.add_sub_cancel_left, List.getElem?_eq_getElem hi]

/-- A statement whose access is answered hands the answer's state to the rest of the run. -/
theorem runTurns_turns_cons {c : Config} {s t : State} {st : Stmt} (p : List Stmt)
    (h : hostAccess (st.access c) { s with agenda := [] } = .next t) :
    runTurns (turns c (st :: p)) s = runTurns (turns c p) t := by
  have hstep : step { s with agenda := [.host (st.access c)] } = .next t := h
  simp only [turns, List.map_cons, runTurns, hstep]

/-- An 8-bit write statement hands the rest of the run the byte written, with the parameters and STATUS kept. -/
theorem runTurns_wb (p : List Stmt) {s : State} {a : Nat} (hc : s.cfg.wf = true) (hidle : s.status.busy = false)
    (ha : a < s.cfg.bufBytes) (b : Byte) :
    ∃ t, runTurns (turns s.cfg (.wb a b :: p)) s = runTurns (turns s.cfg p) t ∧
      t.cfg = s.cfg ∧ t.status = s.status ∧ t.mem = s.mem.write a [b] := by
  have hwrite := hostAccess_writeByte_of_idle (s := { s with agenda := [] }) hc hidle ha (b.setWidth 32)
  rw [BitVec.setWidth_setWidth_of_le b (by decide), BitVec.setWidth_eq] at hwrite
  exact ⟨_, runTurns_turns_cons (st := .wb a b) p hwrite, rfl, rfl, rfl⟩

/-- A 32-bit write statement hands the rest of the run the word's bytes, with the parameters and STATUS kept. -/
theorem runTurns_ww (p : List Stmt) {s : State} {a : Nat} (hc : s.cfg.wf = true) (hidle : s.status.busy = false)
    (h4 : a % 4 = 0) (ha : a + 4 ≤ s.cfg.bufBytes) (v : Word) :
    ∃ t, runTurns (turns s.cfg (.ww a v :: p)) s = runTurns (turns s.cfg p) t ∧
      t.cfg = s.cfg ∧ t.status = s.status ∧ t.mem = s.mem.write a (toBe32 v) :=
  ⟨_, runTurns_turns_cons (st := .ww a v) p
    (hostAccess_writeWord_of_idle (s := { s with agenda := [] }) hc hidle h4 ha v), rfl, rfl, rfl⟩

/-- `wbytes a, bs` (R99) writes the span `bs` at `a` byte by byte. -/
theorem runTurns_wbytes (p : List Stmt) {s : State} {a : Nat} {bs : List Byte} (hc : s.cfg.wf = true)
    (hidle : s.status.busy = false) (ha : a + bs.length ≤ s.cfg.bufBytes) :
    ∃ t, runTurns (turns s.cfg (Asm.wbytes a bs ++ p)) s = runTurns (turns s.cfg p) t ∧
      t.cfg = s.cfg ∧ t.status = s.status ∧ t.mem = s.mem.write a bs := by
  induction bs generalizing s a with
  | nil => exact ⟨s, rfl, rfl, rfl, rfl⟩
  | cons b bs ih =>
    rw [List.length_cons] at ha
    obtain ⟨u, hrunb, hcfgb, hstatusb, hmemb⟩ :=
      runTurns_wb (a := a) (Asm.wbytes (a + 1) bs ++ p) hc hidle (by omega) b
    obtain ⟨t, hrun, hcfg, hstatus, hmem⟩ := ih (s := u) (a := a + 1) (hcfgb ▸ hc) (hstatusb ▸ hidle)
      (by rw [hcfgb]; omega)
    rw [hcfgb] at hrun hcfg
    exact ⟨t, hrunb.trans hrun, hcfg, hstatus.trans hstatusb, by rw [hmem, hmemb]; rfl⟩

theorem runTurns_rb {s : State} {a : Nat} (hc : s.cfg.wf = true) (hidle : s.status.busy = false)
    (ha : a < s.cfg.bufBytes) :
    ∃ t, runTurns (turns s.cfg [.rb a]) s = .next t ∧ t.resp = some (.byte (s.readByte a)) :=
  ⟨_, runTurns_turns_cons [] (hostAccess_readByte_of_idle (s := { s with agenda := [] }) hc hidle ha), rfl⟩

theorem runTurns_rw {s : State} {a : Nat} (hc : s.cfg.wf = true) (hidle : s.status.busy = false)
    (h4 : a % 4 = 0) (ha : a + 4 ≤ s.cfg.bufBytes) :
    ∃ t, runTurns (turns s.cfg [.rw a]) s = .next t ∧ t.resp = some (.word (be32 (s.memRead a 4))) :=
  ⟨_, runTurns_turns_cons [] (hostAccess_readWord_of_idle (s := { s with agenda := [] }) hc hidle h4 ha), rfl⟩

/-- R73 from words to bytes. -/
theorem runTurns_ww_rb {s : State} {a i : Nat} (hc : s.cfg.wf = true) (hidle : s.status.busy = false)
    (h4 : a % 4 = 0) (ha : a + 4 ≤ s.cfg.bufBytes) (v : Word) (hi : i < 4) :
    ∃ t, runTurns (turns s.cfg [.ww a v, .rb (a + i)]) s = .next t ∧
      t.resp = some (.byte (v.extractLsb' (24 - 8 * i) 8)) := by
  obtain ⟨u, hwrite, hcfg, hstatus, hmem⟩ := runTurns_ww [.rb (a + i)] hc hidle h4 ha v
  obtain ⟨t, hread, hresp⟩ := runTurns_rb (s := u) (a := a + i) (hcfg ▸ hc) (hstatus ▸ hidle) (by rw [hcfg]; omega)
  rw [hcfg] at hread
  have hbyte : u.mem.get? (a + i) = some (v.extractLsb' (24 - 8 * i) 8) := by
    rw [hmem, Memory.get?_write, if_pos (by simp [hi]), Nat.add_sub_cancel_left, toBe32_getElem? v hi]
  exact ⟨t, hwrite.trans hread, by rw [hresp, State.readByte_of_get? hbyte]⟩

/-- R73 from bytes to words: the span that `wbytes` wrote is read as one word. -/
theorem runTurns_wbytes_rw {s : State} {a : Nat} {bs : List Byte} (hc : s.cfg.wf = true)
    (hidle : s.status.busy = false) (h4 : a % 4 = 0) (ha : a + 4 ≤ s.cfg.bufBytes) (hbs : bs.length = 4) :
    ∃ t, runTurns (turns s.cfg (Asm.wbytes a bs ++ [.rw a])) s = .next t ∧ t.resp = some (.word (be32 bs)) := by
  obtain ⟨u, hwrites, hcfg, hstatus, hmem⟩ := runTurns_wbytes [.rw a] hc hidle (hbs ▸ ha)
  obtain ⟨t, hread, hresp⟩ := runTurns_rw (s := u) (a := a) (hcfg ▸ hc) (hstatus ▸ hidle) h4 (hcfg ▸ ha)
  rw [hcfg] at hread
  refine ⟨t, hwrites.trans hread, ?_⟩
  rw [hresp, ← hbs, State.memRead_of_mem_eq_write hmem]

/-- Settles O18: the memory laws on the state after the writes; the four byte writes are `wbytes` of their bytes. -/
theorem mixedWidthView : Obligations.MixedWidthView := by
  intro s a v b0 b1 b2 b3 hc hidle h4 ha
  exact ⟨fun _ hi => runTurns_ww_rb hc hidle h4 ha v hi,
    runTurns_wbytes_rw (bs := [b0, b1, b2, b3]) hc hidle h4 ha rfl⟩

end Sys2Proof.Machine
end

section
/-! The statements of 30_encoding.md: decoding by the fields of the command word (R90 to R92), and how an illegal word
completes (R94, R196). The format check `cmdWordWf` stands between the two: a word that passes it is the encoding of a
command, and `decode` answers a command for exactly these words. -/

namespace Sys2Proof

/-! ### The fields of a command word (R90) -/

theorem cmdWord_eq_append_fields (w : Word) :
    w = w.extractLsb' 9 23 ++ BitVec.ofBool (cmdInit w) ++ w.extractLsb' 4 4 ++ cmdOp w := by
  apply BitVec.eq_of_getLsbD_eq
  intro i hi
  simp only [cmdInit, cmdOp, BitVec.getLsbD_append, BitVec.getLsbD_extractLsb', BitVec.getLsbD_ofBool]
  grind

@[simp] theorem cmdOp_encode (i : Instr) : cmdOp (encode i) = opOf i := by
  cases i with
  | crc init => cases init <;> decide
  | tcchk => decide
  | enc => decide
  | dec => decide

@[simp] theorem cmdInit_encode_crc (init : Bool) : cmdInit (encode (.crc init)) = init := by
  cases init <;> decide

/-- R91 read backwards: OP and I tell the command. -/
theorem encode_fields_name_command (i : Instr) :
    (cmdOp (encode i) = 1#4 ↔ i = .crc (cmdInit (encode i))) ∧ (cmdOp (encode i) = 2#4 ↔ i = .tcchk) ∧
      (cmdOp (encode i) = 3#4 ↔ i = .enc) ∧ (cmdOp (encode i) = 4#4 ↔ i = .dec) := by
  cases i <;> simp [opOf]

/-- The format check says the negation of R92's reasons for ILLEGAL. -/
theorem cmdWordWf_eq_false_iff (w : Word) : cmdWordWf w = false ↔
    w.extractLsb' 4 4 ≠ 0#4 ∨ w.extractLsb' 9 23 ≠ 0#23 ∨ cmdOp w = 0#4 ∨ 4 < (cmdOp w).toNat ∨
      (cmdInit w = true ∧ cmdOp w ≠ 1#4) := by
  have hop : (cmdOp w).toNat = 0 ↔ cmdOp w = 0#4 := (BitVec.toNat_eq (y := 0#4)).symm
  simp only [cmdWordWf, cmdLowReservedOk, cmdHighReservedOk, cmdOpOk, cmdInitOk, Bool.and_eq_false_iff]
  grind

/-- With the reserved fields 0, OP from 1 to 4 and I reserved to CRC, a word has only five values left. -/
theorem exists_eq_encode_of_cmdWordWf {w : Word} (h : cmdWordWf w = true) : ∃ i, w = encode i := by
  simp only [cmdWordWf, cmdLowReservedOk, cmdHighReservedOk, cmdOpOk, cmdInitOk, Bool.and_eq_true, beq_iff_eq,
    decide_eq_true_eq, Bool.or_eq_true, Bool.not_eq_true'] at h
  obtain ⟨⟨⟨hlow, hhigh⟩, hpos, hle⟩, hinit⟩ := h
  have hw := cmdWord_eq_append_fields w
  rw [hlow, hhigh] at hw
  have hop : cmdOp w = 1#4 ∨ cmdOp w = 2#4 ∨ cmdOp w = 3#4 ∨ cmdOp w = 4#4 := by bv_omega
  obtain hop | hop | hop | hop := hop
  · exact ⟨.crc (cmdInit w), by rw [hop] at hw; exact hw⟩
  all_goals
    rw [hop] at hw hinit
    rw [hinit.resolve_right (by decide)] at hw
  · exact ⟨.tcchk, hw⟩
  · exact ⟨.enc, hw⟩
  · exact ⟨.dec, hw⟩

theorem cmdWordWf_encode (i : Instr) : cmdWordWf (encode i) = true := by
  cases i with
  | crc init => exact Laws.EncodeWf.crc init rfl
  | tcchk => exact Laws.EncodeWf.tcchk rfl
  | enc => exact Laws.EncodeWf.enc rfl
  | dec => exact Laws.EncodeWf.dec rfl

/-! ### Decoding (R91, R92) -/

@[simp] theorem decode_encode (i : Instr) : decode (encode i) = .command i := by
  cases i with
  | crc init => cases init <;> decide
  | tcchk => decide
  | enc => decide
  | dec => decide

theorem eq_encode_of_decode {w : Word} {i : Instr} (h : decode w = .command i) : w = encode i := by
  unfold decode at h
  split_ifs at h with hcrc hinit htcchk henc hdec <;> cases h
  · exact hcrc
  · exact hinit
  · exact htcchk
  · exact henc
  · exact hdec

/-- R92's list of legal words: `decode` compares with each of them in turn. -/
theorem decode_ne_illegal_iff_mem (w : Word) : decode w ≠ .illegal ↔
    w ∈ [0x00000001#32, 0x00000101#32, 0x00000002#32, 0x00000003#32, 0x00000004#32] := by
  simp only [decode, List.mem_cons, List.not_mem_nil, or_false]
  split_ifs <;> simp [*]

/-- R92 by the format: a word is ILLEGAL exactly when it fails the format check. -/
theorem decode_eq_illegal_iff (w : Word) : decode w = .illegal ↔ cmdWordWf w = false := by
  cases hd : decode w with
  | illegal =>
    have hwf : cmdWordWf w ≠ true := fun h => by
      obtain ⟨i, rfl⟩ := exists_eq_encode_of_cmdWordWf h
      rw [decode_encode] at hd
      cases hd
    simpa using hwf
  | command i => simp [eq_encode_of_decode hd, cmdWordWf_encode]

/-- Settles O4: ILLEGAL is a failed format check, and a legal word is the encoding of its command, whose fields are
known. -/
theorem decodeByFields : Obligations.DecodeByFields := by
  refine ⟨decode_ne_illegal_iff_mem, fun w => (decode_eq_illegal_iff w).trans (cmdWordWf_eq_false_iff w),
    fun w i h => ?_⟩
  obtain rfl := eq_encode_of_decode h
  exact encode_fields_name_command i

end Sys2Proof

namespace Sys2Proof.Machine

/-! ### An illegal word (R94, R196) -/

theorem engineStep_of_illegal {s : State} (h : decode s.cmd = .illegal) :
    engineStep s = .next (s.completed .illegalCommand) := by
  simp only [engineStep, h, execIllegal, raise]

/-- Settles O44: the ENGINE's step on an illegal word is the completion by ILLEGAL_COMMAND and nothing else. -/
theorem illegalCommandCompletes : Obligations.IllegalCommandCompletes := by
  intro s hbusy hnext hillegal
  exact ⟨s.draws + 1, (step_of_busy hnext hbusy).trans (engineStep_of_illegal hillegal)⟩

end Sys2Proof.Machine
end

section
/-! The statements of 40_crc.md: the byte step through the table (R115), known checksums (R113, R114), what the CRC command
does (R120), and chains of CRC commands (R117, R121). -/

namespace Sys2Proof.Machine

/-! ### The byte step through the table (R115) -/

/-- A round on a register with bit 0 clear is a plain shift, so the rounds before the first set bit shift it out whole. -/
theorem crcShift_iterate_of_low_clear (k : Nat) {x : Word} (h : ∀ i < k, x.getLsbD i = false) :
    crcShift^[k] x = x >>> k := by
  induction k generalizing x with
  | zero => simp
  | succ k ih =>
    have hround : crcShift x = x >>> 1 := if_neg (ne_true_of_eq_false (h 0 k.succ_pos))
    have hlow : ∀ i < k, (x >>> 1).getLsbD i = false := fun i hi => by
      rw [BitVec.getLsbD_ushiftRight]
      exact h (1 + i) (by omega)
    rw [Function.iterate_succ_apply, hround, ih hlow, ← BitVec.shiftRight_add, Nat.add_comm]

/-- The rounds of one byte by linearity: the low byte goes through the table, the rest is shifted. -/
theorem crcShift_iterate_eight (x : Word) : crcShift^[8] x = crcTable (x.setWidth 8) ^^^ (x >>> 8) := by
  have hsplit : x = (0#32 ^^^ (x.setWidth 8).setWidth 32) ^^^ (x >>> 8 <<< 8) := by
    ext i hi
    grind
  have hclear : ∀ i < 8, (x >>> 8 <<< 8).getLsbD i = false := fun i hi => by simp [hi]
  have hrest : x >>> 8 <<< 8 >>> 8 = x >>> 8 := by
    ext i hi
    grind
  calc crcShift^[8] x
      = crcTable (x.setWidth 8) ^^^ crcShift^[8] (x >>> 8 <<< 8) := by
        conv_lhs => rw [hsplit, crcShift_iterate_xor]
        rfl
    _ = crcTable (x.setWidth 8) ^^^ (x >>> 8) := by rw [crcShift_iterate_of_low_clear 8 hclear, hrest]

/-- A byte lies below bit 8. -/
theorem xor_setWidth_shiftRight_eight (c : Word) (b : Byte) : (c ^^^ b.setWidth 32) >>> 8 = c >>> 8 := by
  have hb : b.setWidth 32 >>> 8 = 0#32 := by
    ext i hi
    simp
  rw [BitVec.ushiftRight_xor_distrib, hb, BitVec.xor_zero]

theorem crcUpdate_eq_table (c : Word) (b : Byte) :
    crcUpdate c b = crcTable ((c ^^^ b.setWidth 32).setWidth 8) ^^^ (c >>> 8) := by
  rw [crcUpdate, crcShift_iterate_eight, xor_setWidth_shiftRight_eight]

/-- R112's loop is the left fold of the byte step. -/
theorem crcFeed_eq_foldl (c : Word) (bs : List Byte) : crcFeed c bs = bs.foldl crcUpdate c := by
  induction bs generalizing c with
  | nil => rfl
  | cons b bs ih => exact ih _

/-- Settles O20: the table form of the byte step, folded over a sequence, and the listed entries by evaluation. -/
theorem crcTableFormAgrees : Obligations.CrcTableFormAgrees := by
  refine ⟨crcUpdate_eq_table, fun c bs => ?_, fun _ => rfl, ?_⟩
  · simp only [← crcUpdate_eq_table]
    exact crcFeed_eq_foldl c bs
  · decide

/-! ### Known checksums (R113, R114) -/

/-- Settles O21: R113 is the definition, and the vectors are evaluated. -/
theorem crcKnownValues : Obligations.CrcKnownValues :=
  ⟨by decide, fun _ => rfl, by decide +kernel, by decide +kernel⟩

/-! ### The CRC command (R120) -/

theorem exec_crc_of_outside {s : State} (init : Bool) (h : s.cfg.bufBytes < s.src.toNat + s.len.toNat) :
    exec (.crc init) s = .next (s.completed .range) := by
  have hspan : ¬ spanOk s.cfg s.src.toNat s.len.toNat = true := by
    rw [spanOk_iff]
    omega
  rw [exec, execCrc_eq, if_neg hspan]

theorem exec_crc_of_inside {s : State} (init : Bool) (h : s.src.toNat + s.len.toNat ≤ s.cfg.bufBytes) :
    exec (.crc init) s = .next ((crcDone init s).completed .none) := by
  rw [exec, execCrc_eq, if_pos ((spanOk_iff _ _ _).mpr h)]

/-- Settles O22: the two cases of the span test, with `crcDone` written out. -/
theorem crcCommandResult : Obligations.CrcCommandResult := fun init s =>
  ⟨fun h => ⟨s.draws + 1, exec_crc_of_outside init h⟩,
    fun h => ⟨_, rfl, s.draws + 1, exec_crc_of_inside init h⟩⟩

/-! ### Chains of CRC commands (R117, R121) -/

/-- A CRC command that raises nothing has checksummed its span. -/
theorem eq_crcDone_of_exec_crc {init : Bool} {s t : State} (h : exec (.crc init) s = .next t)
    (hok : t.status.errcode = .none) : t = (crcDone init s).completed .none := by
  cases exec_outcome h with
  | plainError hmem => exact absurd hok (ne_of_mem_plainErrors _ hmem).1
  | badTypeCode => cases hok
  | crcDone => rfl

/-- The invariant of a chain: the two registers hold the checksum of the bytes so far, without and with the final XOR. -/
theorem registers_of_crcChain {bs : List Byte} {t : State} :
    CrcChain bs t → t.crcAcc = crcFeed crcInit bs ∧ t.crcOut = crcFinal (crcFeed crcInit bs)
  | CrcChain.start hexec hok => by
    rw [eq_crcDone_of_exec_crc hexec hok]
    exact ⟨rfl, rfl⟩
  | CrcChain.between hchain hacc hout => by
    rw [hacc, hout]
    exact registers_of_crcChain hchain
  | CrcChain.continue hchain hexec hok => by
    obtain ⟨hacc, -⟩ := registers_of_crcChain hchain
    rw [eq_crcDone_of_exec_crc hexec hok, crcFeed_append, ← hacc]
    exact ⟨rfl, rfl⟩

/-- Settles O23: the chaining law, and the invariant of a chain. -/
theorem crcChaining : Obligations.CrcChaining :=
  ⟨crcFeed_append, fun _ _ h => (registers_of_crcChain h).symm⟩

end Sys2Proof.Machine
end

section
/-! The statements of 41_typecode.md: the letters and their case bit (R131, R139), the properties of a type code and its flag
word (R130, R132 to R137), and the TCCHK command (R140). -/

namespace Sys2Proof.Machine

/-! ### The letters and their case bit (R131, R139) -/

theorem upper_iff (b : Byte) : upper b = true ↔ 0x41 ≤ b.toNat ∧ b.toNat ≤ 0x5A := by
  simp [upper]

theorem lower_iff (b : Byte) : lower b = true ↔ 0x61 ≤ b.toNat ∧ b.toNat ≤ 0x7A := by
  simp [lower]

theorem alpha_iff (b : Byte) : alpha b = true ↔ upper b = true ∨ lower b = true := by
  simp [alpha]

theorem getLsbD_five_iff (b : Byte) : b.getLsbD 5 = true ↔ b.toNat / 32 % 2 = 1 := by
  simp [BitVec.getLsbD, Nat.testBit_eq_decide_div_mod_eq]

/-- 0x61 to 0x7A have bit 5 set and 0x41 to 0x5A have it clear. -/
theorem lower_of_alpha {b : Byte} (h : alpha b = true) : lower b = b.getLsbD 5 := by
  rw [Bool.eq_iff_iff, lower_iff, getLsbD_five_iff]
  rw [alpha_iff, upper_iff, lower_iff] at h
  omega

/-- A letter is uppercase exactly when it is not lowercase: the two ranges are disjoint. -/
theorem upper_of_alpha {b : Byte} (h : alpha b = true) : upper b = !b.getLsbD 5 := by
  rw [← lower_of_alpha h, Bool.eq_iff_iff, Bool.not_eq_true', ← Bool.not_eq_true, upper_iff, lower_iff]
  rw [alpha_iff, upper_iff, lower_iff] at h
  omega

/-! ### The properties of a type code (R130, R132 to R136) -/

theorem allAlpha_four_iff (b0 b1 b2 b3 : Byte) : allAlpha [b0, b1, b2, b3] = true ↔
    alpha b0 = true ∧ alpha b1 = true ∧ alpha b2 = true ∧ alpha b3 = true := by
  simp [allAlpha]

/-- The reserved-bit check decides the validity of a type code. -/
theorem valid_of_allAlpha {t : List Byte} (h : allAlpha t = true) : valid t = reservedValid t := by
  rw [valid, h, Bool.and_true]

/-- Settles O26: the ranges by definition, and the case bit of each byte of a type code. -/
theorem letterCaseBit : Obligations.LetterCaseBit := by
  refine ⟨fun b => ⟨upper_iff b, lower_iff b, alpha_iff b, fun h => ⟨?_, ?_⟩⟩, fun b0 b1 b2 b3 h => ?_⟩
  · rw [upper_of_alpha h, Bool.not_eq_true']
  · rw [lower_of_alpha h]
  · obtain ⟨h0, h1, h2, h3⟩ := (allAlpha_four_iff b0 b1 b2 b3).mp h
    exact ⟨upper_of_alpha h0, upper_of_alpha h1, upper_of_alpha h2, lower_of_alpha h3⟩

/-! ### The flag word (R137) -/

/-- Every bit of the flag word. -/
theorem getLsbD_tcFlags (t : List Byte) {i : Nat} (hi : i < 32) : (tcFlags t).getLsbD i =
    (decide (i = 0) || decide (i = 1) && critical t || decide (i = 2) && isPublic t ||
      decide (i = 3) && reservedValid t || decide (i = 4) && safeToCopy t || decide (i = 5) && valid t) := by
  simp only [tcFlags, BitVec.getLsbD_or, getLsbD_flagBit _ _ hi]
  simp [BitVec.getLsbD_one]

/-- The six flags, each in its bit (R38). -/
theorem getLsbD_tcFlags_fields (t : List Byte) :
    (tcFlags t).getLsbD 0 = true ∧ (tcFlags t).getLsbD 1 = critical t ∧ (tcFlags t).getLsbD 2 = isPublic t ∧
      (tcFlags t).getLsbD 3 = reservedValid t ∧ (tcFlags t).getLsbD 4 = safeToCopy t ∧
      (tcFlags t).getLsbD 5 = valid t := by
  have hbit (i : Nat) (hi : i < 32) := getLsbD_tcFlags t hi
  exact ⟨by simpa using hbit 0, by simpa using hbit 1, by simpa using hbit 2, by simpa using hbit 3,
    by simpa using hbit 4, by simpa using hbit 5⟩

/-- Bits 31:6 of the flag word are 0. -/
theorem extractLsb'_tcFlags_high (t : List Byte) : (tcFlags t).extractLsb' 6 26 = 0#26 := by
  apply BitVec.eq_of_getLsbD_eq
  intro i hi
  rw [BitVec.getLsbD_extractLsb', getLsbD_tcFlags t (by omega)]
  simp
  omega

/-- Settles O25: the properties by definition, and the flag word by its bits. -/
theorem typeCodeFlagBits : Obligations.TypeCodeFlagBits := by
  intro b0 b1 b2 b3
  refine ⟨allAlpha_four_iff b0 b1 b2 b3, rfl, rfl, rfl, rfl, rfl, fun h => ⟨_, rfl, ?_⟩⟩
  obtain ⟨halpha, hcritical, hpublic, hreserved, hsafe, hvalid⟩ := getLsbD_tcFlags_fields [b0, b1, b2, b3]
  exact ⟨halpha, hcritical, hpublic, hreserved, hsafe, hvalid, by rw [hvalid, hreserved, valid_of_allAlpha h],
    extractLsb'_tcFlags_high _⟩

/-! ### The TCCHK command (R140) -/

theorem exec_tcchk_of_allAlpha {s : State} (h : allAlpha (tcBytes s.typ) = true) :
    exec .tcchk s = .next (State.completed { s with tcflags := tcFlags (tcBytes s.typ) } .none) := by
  rw [exec, execTcchk_eq, if_pos h]

theorem exec_tcchk_of_not_allAlpha {s : State} (h : allAlpha (tcBytes s.typ) = false) :
    exec .tcchk s = .next (State.completed { s with tcflags := 0#32 } .invalidTypeCode) := by
  rw [exec, execTcchk_eq, if_neg (by rw [h]; decide)]

/-- Settles O27: the two cases of the letter test, on the four bytes of TYPE. -/
theorem tcchkResult : Obligations.TcchkResult := fun s =>
  ⟨tcBytes s.typ, rfl, fun h => ⟨s.draws + 1, exec_tcchk_of_allAlpha h⟩,
    fun h => ⟨s.draws + 1, exec_tcchk_of_not_allAlpha h⟩⟩

end Sys2Proof.Machine
end

section
/-! The statements of 42_framer.md: what ENC and DEC do (R160, R168), the chunks they write and read (R161, R169), the two
round trips (R170, R171), and what their outcomes depend on (R167, R172). ENC's record and DEC's fields are each named as
one `Chunk`, so that a round trip is an equality of two chunks. -/

namespace Sys2Proof.Machine

/-! ### The commands by their error code (R160, R168, R202) -/

theorem spanOk_eq_false_iff (c : Config) (a n : Nat) : spanOk c a n = false ↔ c.bufBytes < a + n := by
  simp [spanOk]

/-! The fields of the states that a success or a mismatch completes. -/

@[simp] theorem encDone_mem (s : State) : (encDone s).mem = s.mem.write s.dst.toNat (encRecord s) := rfl

@[simp] theorem decDone_typ (s : State) : (decDone s).typ = be32 (decType s) := rfl
@[simp] theorem decDone_crcAcc (s : State) : (decDone s).crcAcc = decCrc s := by rw [decDone]
@[simp] theorem decDone_crcOut (s : State) : (decDone s).crcOut = crcFinal (decCrc s) := rfl
@[simp] theorem decDone_crcDecl (s : State) : (decDone s).crcDecl = decDecl s := rfl
@[simp] theorem decDone_dst (s : State) : (decDone s).dst = s.dst := rfl
@[simp] theorem decDone_dlen (s : State) : (decDone s).dlen = decLen s := rfl
@[simp] theorem decDone_rlen (s : State) : (decDone s).rlen = BitVec.ofNat 32 ((decLen s).toNat + 12) := rfl
@[simp] theorem decDone_tcflags (s : State) : (decDone s).tcflags = tcFlags (decType s) := rfl
@[simp] theorem decDone_mem (s : State) : (decDone s).mem = s.mem.write s.dst.toNat (decData s) := rfl

@[simp] theorem decMismatch_crcAcc (s : State) : (decMismatch s).crcAcc = decCrc s := by rw [decMismatch]
@[simp] theorem decMismatch_crcOut (s : State) : (decMismatch s).crcOut = crcFinal (decCrc s) := rfl
@[simp] theorem decMismatch_crcDecl (s : State) : (decMismatch s).crcDecl = decDecl s := rfl

/-- The code ENC ends with: that of the first test that fails. -/
def encCode (s : State) : ErrCode :=
  if s.cfg.bufBytes < s.src.toNat + s.len.toNat then .range
  else if allAlpha (tcBytes s.typ) = false then .invalidTypeCode
  else if s.cfg.bufBytes < s.dst.toNat + (s.len.toNat + 12) then .range
  else if overlap s.src.toNat s.len.toNat s.dst.toNat (s.len.toNat + 12) = true then .overlap
  else .none

/-- What ENC writes before it ends with a code. -/
def encNext (s : State) : ErrCode → State
  | .none => encDone s
  | .invalidTypeCode => { s with tcflags := 0#32 }
  | .truncatedInput | .checksumMismatch | .range | .overlap | .illegalCommand => s

/-- ENC as a function of its code: each test picks both the code and what is written. -/
theorem exec_enc_eq (s : State) : exec .enc s = .next ((encNext s (encCode s)).completed (encCode s)) := by
  rw [exec, execEnc_eq]
  simp only [Bool.not_eq_true', spanOk_eq_false_iff]
  show _ = Host.Outcome.next ((fun e => (encNext s e).completed e) (encCode s))
  simp only [encCode, apply_ite (fun e => (encNext s e).completed e)]
  rfl

theorem completesWith_enc {s : State} {e : ErrCode} (h : encCode s = e) : CompletesWith .enc s e (encNext s e) :=
  ⟨_, h ▸ exec_enc_eq s⟩

/-- The code DEC ends with: that of the first test that fails. -/
def decCode (s : State) : ErrCode :=
  if s.cfg.bufBytes < s.src.toNat + s.len.toNat then .range
  else if s.len.toNat < 8 then .truncatedInput
  else if allAlpha (decType s) = false then .invalidTypeCode
  else if s.len.toNat < 12 + (decLen s).toNat then .truncatedInput
  else if crcFinal (decCrc s) ≠ decDecl s then .checksumMismatch
  else if s.cfg.bufBytes < s.dst.toNat + (decLen s).toNat then .range
  else if overlap s.src.toNat ((decLen s).toNat + 12) s.dst.toNat (decLen s).toNat = true then .overlap
  else .none

/-- What DEC writes before it ends with a code. -/
def decNext (s : State) : ErrCode → State
  | .none => decDone s
  | .invalidTypeCode => { s with tcflags := 0#32 }
  | .checksumMismatch => decMismatch s
  | .truncatedInput | .range | .overlap | .illegalCommand => s

/-- DEC as a function of its code: each test picks both the code and what is written. -/
theorem exec_dec_eq (s : State) : exec .dec s = .next ((decNext s (decCode s)).completed (decCode s)) := by
  rw [exec, execDec_eq]
  simp only [Bool.not_eq_true', spanOk_eq_false_iff]
  show _ = Host.Outcome.next ((fun e => (decNext s e).completed e) (decCode s))
  simp only [decCode, apply_ite (fun e => (decNext s e).completed e)]
  rfl

theorem completesWith_dec {s : State} {e : ErrCode} (h : decCode s = e) : CompletesWith .dec s e (decNext s e) :=
  ⟨_, h ▸ exec_dec_eq s⟩

theorem eq_of_exec_dec {s t : State} (h : exec .dec s = .next t) :
    t = (decNext s (decCode s)).completed (decCode s) := by
  rw [exec_dec_eq] at h
  injection h with h
  exact h.symm

/-! ### The ENC command (R160) -/

/-- Settles O28: ENC's code under each clause's tests, and what it writes before that code. -/
theorem encResult : Obligations.EncResult := by
  intro s
  refine ⟨_, _, _, _, _, _, rfl, rfl, rfl, rfl, rfl, rfl, ?_, ?_, ?_, ?_, ?_⟩
  · exact fun hout => completesWith_enc (if_pos hout)
  · intro hin halpha
    exact completesWith_enc (by simp [encCode, not_lt.mpr hin, halpha])
  · intro hin halpha hout
    exact completesWith_enc (by simp [encCode, not_lt.mpr hin, halpha, hout])
  · intro hin halpha hrec hover
    exact completesWith_enc (by simp [encCode, not_lt.mpr hin, halpha, not_lt.mpr hrec, hover])
  · intro hin halpha hrec hapart
    exact completesWith_enc (by simp [encCode, not_lt.mpr hin, halpha, not_lt.mpr hrec, hapart])

/-! ### DEC's fields and ENC's operands as a chunk (R154, R155) -/

theorem Chunk.valid_iff (c : Chunk) : c.valid = true ↔ c.length.toNat = c.data.length ∧
    allAlpha c.typeCode = true ∧ c.checksum = crc32 (c.typeCode ++ c.data) := by
  simp [Chunk.valid, and_assoc]

/-- The chunk whose record ENC writes. -/
def encChunk (s : State) : Chunk :=
  { length := s.len
    typeCode := tcBytes s.typ
    data := s.memRead s.src.toNat s.len.toNat
    checksum := crcFinal (encCrc s) }

/-- The chunk that the fields of DEC's input span spell, its checksum the declared one. -/
def decChunk (s : State) : Chunk :=
  { length := decLen s, typeCode := decType s, data := decData s, checksum := decDecl s }

@[simp] theorem decType_length (s : State) : (decType s).length = 4 := s.memRead_length _ _

@[simp] theorem decData_length (s : State) : (decData s).length = (decLen s).toNat := s.memRead_length _ _

theorem encChunk_encode (s : State) : (encChunk s).encode = encRecord s := rfl

@[simp] theorem encRecord_length (s : State) : (encRecord s).length = s.len.toNat + 12 := by
  simp only [encRecord, recordBytes, List.length_append, toBe32_length, tcBytes_length, State.memRead_length]
  omega

/-- A record's span is cut into its four fields. -/
theorem State.memRead_record (s : State) (a n : Nat) : s.memRead a (n + 12) =
    s.memRead a 4 ++ s.memRead (a + 4) 4 ++ s.memRead (a + 8) n ++ s.memRead (a + 8 + n) 4 := by
  rw [show n + 12 = 4 + 4 + n + 4 by omega, memRead_add, memRead_add, memRead_add, Nat.add_assoc a 8 n]

/-- The record of DEC's fields is what stands at SRC. -/
theorem decChunk_encode (s : State) :
    (decChunk s).encode = s.memRead s.src.toNat ((decLen s).toNat + 12) := by
  simp only [Chunk.encode, recordBytes, decChunk, State.memRead_record]
  rw [decLen, decDecl, toBe32_be32 (s.memRead_length _ _), toBe32_be32 (s.memRead_length _ _)]
  rfl

/-- Where a chunk's record stands at SRC, DEC's fields are that chunk: a record has one reading. -/
theorem decChunk_eq_of_memRead {r : State} {c : Chunk} (htype : c.typeCode.length = 4)
    (hdata : c.data.length = c.length.toNat)
    (h : r.memRead r.src.toNat (c.length.toNat + 12) = c.encode) : decChunk r = c := by
  obtain ⟨n, t, d, k⟩ := c
  simp only at htype hdata h
  rw [State.memRead_record, Chunk.encode, recordBytes] at h
  obtain ⟨h, hk⟩ := List.append_inj' h (by simp)
  obtain ⟨h, hd⟩ := List.append_inj' h (by simp [hdata])
  obtain ⟨hn, ht⟩ := List.append_inj' h (by simp [htype])
  have hlen : decLen r = n := by rw [decLen, hn, be32_toBe32]
  rw [decChunk, decData, decDecl, decType, hlen, ht, hd, hk, be32_toBe32]

theorem encChunk_valid {s : State} (h : allAlpha (tcBytes s.typ) = true) : (encChunk s).valid = true :=
  (Chunk.valid_iff _).mpr ⟨(s.memRead_length _ _).symm, h, rfl⟩

theorem decChunk_valid {s : State} (h : DecOk s) : (decChunk s).valid = true :=
  (Chunk.valid_iff _).mpr ⟨(decData_length s).symm, h.alpha, h.sum.symm⟩

/-! ### What a success leaves in the buffer (R161, R169) -/

/-- The record is read back after a successful ENC. -/
theorem memRead_of_encDone {s r : State} (h : r.mem = (encDone s).mem) :
    r.memRead s.dst.toNat (s.len.toNat + 12) = (encChunk s).encode := by
  rw [encDone_mem] at h
  rw [encChunk_encode, ← encRecord_length s]
  exact State.memRead_of_mem_eq_write h

/-- The data is read back after a successful DEC. -/
theorem memRead_of_decDone {s r : State} (h : r.mem = (decDone s).mem) :
    r.memRead s.dst.toNat (decLen s).toNat = decData s := by
  rw [decDone_mem] at h
  rw [← decData_length s]
  exact State.memRead_of_mem_eq_write h

/-- A span write leaves the bytes outside its span alone. -/
theorem Memory.get?_write_of_outside {m : Memory} {a x : Nat} {bs : List Byte} (h : x < a ∨ a + bs.length ≤ x) :
    (m.write a bs).get? x = m.get? x := by
  rw [get?_write, if_neg (by omega)]

/-- Settles O29: the chunk is `encChunk`, and the span write of its record. -/
theorem encWritesExactlyTheRecord : Obligations.EncWritesExactlyTheRecord := by
  intro s t h hok
  obtain ⟨hs, rfl⟩ := execEnc_ok h hok
  have hnew : Chunk.new (tcBytes s.typ) (s.memRead s.src.toNat s.len.toNat) = .ok (encChunk s) := by
    rw [Chunk.new, if_pos hs.alpha, State.memRead_length, BitVec.ofNat_toNat, BitVec.setWidth_eq]
    rfl
  refine ⟨encChunk s, hnew, encChunk_valid hs.alpha, rfl, rfl, encRecord_length s, fun i hi => ?_, fun x hx => ?_,
    memRead_of_encDone rfl⟩
  · show (s.mem.write s.dst.toNat (encRecord s)).get? (s.dst.toNat + i) = (encRecord s)[i]?
    rw [Memory.get?_write, encRecord_length, if_pos (by omega), Nat.add_sub_cancel_left]
  · exact Memory.get?_write_of_outside (by rwa [encRecord_length])

/-- Settles O31: the chunk is `decChunk`, which DEC's success writes out; every other outcome writes none of its places. -/
theorem decLeavesTheChunk : Obligations.DecLeavesTheChunk := by
  intro s t h
  refine ⟨fun hok => ?_, fun herr => ?_⟩
  · obtain ⟨hs, rfl⟩ := execDec_ok h hok
    have hlen : (decChunk s).data.length = (decLen s).toNat := decData_length s
    refine ⟨decChunk s, decChunk_valid hs, ?_, rfl, toBe32_be32 (decType_length s), ?_, rfl, hs.sum, fun x hx => ?_⟩
    · rw [hlen, decChunk_encode]
    · rw [hlen]
      exact memRead_of_decDone (s := s) rfl
    · exact Memory.get?_write_of_outside hx
  · cases exec_outcome h with
    | plainError | badTypeCode | decMismatch => exact ⟨rfl, rfl, rfl, rfl⟩
    | decDone => exact absurd rfl herr

/-! ### The two round trips (R170, R171) -/

/-- Settles O33: the fields that DEC reads are the chunk that ENC wrote, which is valid. -/
theorem encodeThenDecode : Obligations.EncodeThenDecode := by
  intro s s1 r h hok hcfg hmem hsrc hlen hout hapart
  obtain ⟨hs, rfl⟩ := execEnc_ok h hok
  have hchunk : decChunk r = encChunk s :=
    decChunk_eq_of_memRead rfl (s.memRead_length _ _) (by rw [hsrc]; exact memRead_of_encDone hmem)
  have hn : decLen r = s.len := congrArg Chunk.length hchunk
  have ht : decType r = tcBytes s.typ := congrArg Chunk.typeCode hchunk
  have hd : decData r = s.memRead s.src.toNat s.len.toNat := congrArg Chunk.data hchunk
  have hk : decDecl r = crcFinal (encCrc s) := congrArg Chunk.checksum hchunk
  have hsum : crcFinal (decCrc r) = decDecl r := by
    rw [hk, decCrc, ht, hd]
    rfl
  have hr : DecOk r :=
    { input := by
        rw [hcfg, hsrc, hlen]
        exact hs.record
      long := by
        rw [hn, hlen]
        omega
      alpha := ht ▸ hs.alpha
      sum := hsum
      output := by rwa [hn]
      apart := by rwa [hn] }
  refine ⟨_, exec_dec_of_ok hr, rfl, ?_, hn, ?_, hk, hsum⟩
  · show be32 (decType r) = s.typ
    rw [ht]
    exact be32_toBe32 s.typ
  · rw [← hd, ← hn]
    exact memRead_of_decDone rfl

/-- Settles O34: the chunk that ENC writes is the one that DEC read, since DEC has checked its checksum. -/
theorem decodeThenEncode : Obligations.DecodeThenEncode := by
  intro s s1 r h hok hcfg hmem htyp hsrc hlen hout hapart
  obtain ⟨hs, rfl⟩ := execDec_ok h hok
  have hn : r.len = decLen s := hlen
  have ht : tcBytes r.typ = decType s := by
    rw [htyp]
    exact toBe32_be32 (decType_length s)
  have hd : r.memRead r.src.toNat r.len.toNat = decData s := by
    rw [hsrc, hn]
    exact memRead_of_decDone hmem
  have hk : crcFinal (encCrc r) = decDecl s := by
    rw [encCrc, ht, hd]
    exact hs.sum
  have hchunk : encChunk r = decChunk s := by rw [encChunk, hd, hk, ht, hn, decChunk]
  have hr : EncOk r :=
    { data := by
        rw [hcfg, hsrc, hn]
        exact hs.output
      alpha := ht ▸ hs.alpha
      record := by rwa [hlen]
      apart := by rwa [hlen] }
  refine ⟨_, exec_enc_of_ok hr, rfl, ?_⟩
  calc ((encDone r).completed .none).memRead r.dst.toNat ((decLen s).toNat + 12)
      = (encChunk r).encode := by
        rw [← hn]
        exact memRead_of_encDone rfl
    _ = s.memRead s.src.toNat ((decLen s).toNat + 12) := by rw [hchunk, decChunk_encode]

/-! ### DEC's code, stage by stage (R202) -/

section Stages
variable {s : State} (hin : s.src.toNat + s.len.toNat ≤ s.cfg.bufBytes)

theorem decCode_of_outside (h : s.cfg.bufBytes < s.src.toNat + s.len.toNat) : decCode s = .range := if_pos h

include hin

theorem decCode_of_short (h : s.len.toNat < 8) : decCode s = .truncatedInput := by
  rw [decCode, if_neg (not_lt.mpr hin), if_pos h]

theorem decCode_of_badType (h8 : 8 ≤ s.len.toNat) (h : allAlpha (decType s) = false) :
    decCode s = .invalidTypeCode := by
  rw [decCode, if_neg (not_lt.mpr hin), if_neg (not_lt.mpr h8), if_pos h]

theorem decCode_of_cut (h8 : 8 ≤ s.len.toNat) (h : s.len.toNat < 12 + (decLen s).toNat) :
    decCode s = if allAlpha (decType s) = true then .truncatedInput else .invalidTypeCode := by
  rw [decCode, if_neg (not_lt.mpr hin), if_neg (not_lt.mpr h8), if_pos h]
  cases allAlpha (decType s) <;> rfl

end Stages

/-- The code of a DEC of a whole record at `src` with its output at `dst` in a buffer of `size` bytes. -/
def recordCode (size src dst : Nat) (c : Chunk) : ErrCode :=
  if allAlpha c.typeCode = false then .invalidTypeCode
  else if crc32 (c.typeCode ++ c.data) ≠ c.checksum then .checksumMismatch
  else if size < dst + c.length.toNat then .range
  else if overlap src (c.length.toNat + 12) dst c.length.toNat = true then .overlap
  else .none

/-- A span that holds a whole record is judged by the record. -/
theorem decCode_of_whole {s : State} (hin : s.src.toNat + s.len.toNat ≤ s.cfg.bufBytes)
    (hwhole : 12 + (decLen s).toNat ≤ s.len.toNat) :
    decCode s = recordCode s.cfg.bufBytes s.src.toNat s.dst.toNat (decChunk s) := by
  rw [decCode, if_neg (not_lt.mpr hin), if_neg (show ¬ s.len.toNat < 8 by omega), if_neg (not_lt.mpr hwhole)]
  rfl

theorem recordCode_ne_truncatedInput (size src dst : Nat) (c : Chunk) :
    recordCode size src dst c ≠ .truncatedInput := by
  unfold recordCode
  split_ifs <;> decide

section Record
variable {size src dst : Nat} {c : Chunk} (ht : allAlpha c.typeCode = true)
include ht

theorem recordCode_of_mismatch (h : crc32 (c.typeCode ++ c.data) ≠ c.checksum) :
    recordCode size src dst c = .checksumMismatch := by
  rw [recordCode, if_neg (by simp [ht]), if_pos h]

variable (hsum : crc32 (c.typeCode ++ c.data) = c.checksum)
include hsum

theorem recordCode_of_outside (h : size < dst + c.length.toNat) : recordCode size src dst c = .range := by
  rw [recordCode, if_neg (by simp [ht]), if_neg (not_not.mpr hsum), if_pos h]

theorem recordCode_of_overlap (hout : dst + c.length.toNat ≤ size)
    (h : overlap src (c.length.toNat + 12) dst c.length.toNat = true) : recordCode size src dst c = .overlap := by
  rw [recordCode, if_neg (by simp [ht]), if_neg (not_not.mpr hsum), if_neg (not_lt.mpr hout), if_pos h]

theorem recordCode_of_apart (hout : dst + c.length.toNat ≤ size)
    (h : overlap src (c.length.toNat + 12) dst c.length.toNat = false) : recordCode size src dst c = .none := by
  rw [recordCode, if_neg (by simp [ht]), if_neg (not_not.mpr hsum), if_neg (not_lt.mpr hout), if_neg (by simp [h])]

end Record

/-- Settles O30: DEC's code at each stage, and what it writes before that code. -/
theorem decResult : Obligations.DecResult := by
  intro s
  refine ⟨_, _, _, _, _, _, _, _, _, rfl, rfl, rfl, rfl, rfl, rfl, rfl, rfl, rfl,
    fun hout => completesWith_dec (decCode_of_outside hout), fun hin => ⟨?_, ?_, fun h8 ht => ⟨?_, fun hwhole => ?_⟩⟩⟩
  · exact fun hshort => completesWith_dec (decCode_of_short hin hshort)
  · exact fun h8 ht => completesWith_dec (decCode_of_badType hin h8 ht)
  · exact fun hcut => completesWith_dec ((decCode_of_cut hin h8 hcut).trans (if_pos ht))
  · have hcode := decCode_of_whole hin hwhole
    refine ⟨fun hne => ?_, fun hsum hout => ?_, fun hsum hin' hover => ?_, fun hsum hin' hapart => ?_⟩
    · exact completesWith_dec (hcode.trans (recordCode_of_mismatch ht hne))
    · exact completesWith_dec (hcode.trans (recordCode_of_outside ht hsum hout))
    · exact completesWith_dec (hcode.trans (recordCode_of_overlap ht hsum hin' hover))
    · rw [BitVec.ofNat_toNat, BitVec.setWidth_eq]
      exact completesWith_dec (hcode.trans (recordCode_of_apart ht hsum hin' hapart))

/-! ### What the outcomes depend on (R167, R172) -/

/-- A DEC that ends with success or with a mismatch has found a whole record in its span. -/
theorem whole_of_decCode {s : State} (h : decCode s = .none ∨ decCode s = .checksumMismatch) :
    12 + (decLen s).toNat ≤ s.len.toNat := by
  by_contra hcut
  have hcode : decCode s ∈ [ErrCode.range, .truncatedInput, .invalidTypeCode] := by
    unfold decCode
    rw [if_pos (not_le.mp hcut)]
    split_ifs <;> decide
  rcases h with h | h <;> rw [h] at hcode <;> revert hcode <;> decide

/-- Two DECs end with the same code and leave the same in every register and byte that an outcome of that code writes. -/
def SameDecResult (t t' : State) : Prop :=
  t'.status.errcode = t.status.errcode ∧
  (t.status.errcode = .none ∨ t.status.errcode = .checksumMismatch →
    t'.crcAcc = t.crcAcc ∧ t'.crcOut = t.crcOut ∧ t'.crcDecl = t.crcDecl) ∧
  (t.status.errcode = .none ∨ t.status.errcode = .invalidTypeCode → t'.tcflags = t.tcflags) ∧
  (t.status.errcode = .none → t'.typ = t.typ ∧ t'.dlen = t.dlen ∧ t'.rlen = t.rlen ∧
    t'.memRead t.dst.toNat t.dlen.toNat = t.memRead t.dst.toNat t.dlen.toNat)

/-- Equal chunks have equal fields, and so equal checksums. -/
theorem decFields_of_decChunk_eq {s s' : State} (h : decChunk s' = decChunk s) :
    decLen s' = decLen s ∧ decType s' = decType s ∧ decData s' = decData s ∧ decDecl s' = decDecl s ∧
      decCrc s' = decCrc s :=
  ⟨congrArg Chunk.length h, congrArg Chunk.typeCode h, congrArg Chunk.data h, congrArg Chunk.checksum h,
    congrArg (fun c : Chunk => crcFeed crcInit (c.typeCode ++ c.data)) h⟩

/-- What DEC leaves is told by its code, DST and, where the code is one of a whole record, the record. -/
theorem sameDecResult {s s' t t' : State} (h : exec .dec s = .next t) (h' : exec .dec s' = .next t')
    (hdst : s'.dst = s.dst) (hcode : decCode s' = decCode s)
    (hchunk : decCode s = .none ∨ decCode s = .checksumMismatch → decChunk s' = decChunk s) : SameDecResult t t' := by
  obtain rfl := eq_of_exec_dec h
  obtain rfl := eq_of_exec_dec h'
  rw [hcode]
  generalize decCode s = e at hchunk
  refine ⟨rfl, fun he => ?_, fun he => ?_, fun he => ?_⟩
  · obtain ⟨-, -, -, hk, hc⟩ := decFields_of_decChunk_eq (hchunk he)
    rcases he with rfl | rfl <;> simp [decNext, hk, hc]
  · rcases he with rfl | rfl
    · obtain ⟨-, ht, -⟩ := decFields_of_decChunk_eq (hchunk (.inl rfl))
      simp [decNext, ht]
    · rfl
  · obtain rfl : e = .none := he
    obtain ⟨hn, ht, hd, -⟩ := decFields_of_decChunk_eq (hchunk (.inl rfl))
    have hdata : ((decDone s).completed .none).memRead s.dst.toNat (decLen s).toNat = decData s :=
      memRead_of_decDone rfl
    have hdata' : ((decDone s').completed .none).memRead s.dst.toNat (decLen s).toNat = decData s := by
      rw [← hdst, ← hn, ← hd]
      exact memRead_of_decDone rfl
    simp [decNext, hn, ht, hdata, hdata']

/-- With the same record bytes at SRC, DEC reads the same chunk. -/
theorem decChunk_congr {s s' : State} (hsrc : s'.src = s.src)
    (h : s'.memRead s.src.toNat ((decLen s).toNat + 12) = s.memRead s.src.toNat ((decLen s).toNat + 12)) :
    decChunk s' = decChunk s :=
  decChunk_eq_of_memRead (decType_length s) (decData_length s) (by rw [hsrc, decChunk_encode]; exact h)

/-- Two spans that hold the same whole record are judged alike. -/
theorem decCode_congr_of_whole {s s' : State} (hsize : s'.cfg.bufBytes = s.cfg.bufBytes) (hsrc : s'.src = s.src)
    (hdst : s'.dst = s.dst) (hchunk : decChunk s' = decChunk s)
    (hin : s.src.toNat + s.len.toNat ≤ s.cfg.bufBytes) (hwhole : 12 + (decLen s).toNat ≤ s.len.toNat)
    (hin' : s'.src.toNat + s'.len.toNat ≤ s'.cfg.bufBytes) (hwhole' : 12 + (decLen s).toNat ≤ s'.len.toNat) :
    decCode s' = decCode s := by
  obtain ⟨hn, -⟩ := decFields_of_decChunk_eq hchunk
  rw [decCode_of_whole hin hwhole, decCode_of_whole hin' (by rwa [hn]), hsize, hsrc, hdst, hchunk]

/-- Settles O36: the two spans hold the same whole record, which tells DEC's code and result. -/
theorem bytesAfterTheRecordIgnored : Obligations.BytesAfterTheRecordIgnored := by
  intro s s' n hn hwhole hin hcfg hsrc hdst hwhole' hin' hmem
  obtain rfl : n = (decLen s).toNat := hn
  rw [Nat.add_comm] at hwhole hwhole'
  have hchunk : decChunk s' = decChunk s := decChunk_congr hsrc hmem
  have hcode : decCode s' = decCode s :=
    decCode_congr_of_whole (by rw [hcfg]) hsrc hdst hchunk hin hwhole hin' hwhole'
  obtain ⟨t, h⟩ := exec_answers .dec s
  obtain ⟨t', h'⟩ := exec_answers .dec s'
  obtain ⟨hsame, hcrc, hflags, hresult⟩ := sameDecResult h h' hdst hcode fun _ => hchunk
  refine ⟨t, t', h, h', hsame, ?_, hcrc, hflags, fun hok => ?_⟩
  · rw [eq_of_exec_dec h, State.completed_status_errcode, decCode_of_whole hin hwhole]
    exact recordCode_ne_truncatedInput _ _ _ _
  · obtain ⟨htyp, hdlen, hrlen, hdata⟩ := hresult hok
    obtain ⟨-, rfl⟩ := execDec_ok h hok
    have hfits : (BitVec.ofNat 32 ((decLen s).toNat + 12)).toNat = (decLen s).toNat + 12 := by
      have := s.len.isLt
      rw [BitVec.toNat_ofNat, Nat.mod_eq_of_lt (by omega)]
    exact ⟨htyp, hdlen, hrlen, rfl, (congrArg BitVec.toNat hrlen).trans hfits, hdata⟩

/-- Two spans that agree agree on every part of them. -/
theorem State.memRead_congr_part {s s' : State} {a m : Nat} (h : s'.memRead a m = s.memRead a m) {i k : Nat}
    (hik : i + k ≤ m) : s'.memRead (a + i) k = s.memRead (a + i) k := by
  have hpart (u : State) : u.memRead (a + i) k = ((u.memRead a m).drop i).take k := by
    rw [memRead_drop _ _ _ _ (by omega), memRead_take _ _ _ _ (by omega)]
  rw [hpart, hpart, h]

section SameSpan
variable {s s' : State} (hsize : s'.cfg.bufBytes = s.cfg.bufBytes) (hsrc : s'.src = s.src) (hlen : s'.len = s.len)
  (hdst : s'.dst = s.dst) (hspan : s'.memRead s.src.toNat s.len.toNat = s.memRead s.src.toNat s.len.toNat)

include hsrc hspan

theorem decLen_congr_of_span (h4 : 4 ≤ s.len.toNat) : decLen s' = decLen s := by
  rw [decLen, hsrc]
  exact congrArg be32 (State.memRead_congr_part hspan (i := 0) (by omega))

theorem decType_congr_of_span (h8 : 8 ≤ s.len.toNat) : decType s' = decType s := by
  rw [decType, hsrc]
  exact State.memRead_congr_part hspan h8

theorem decChunk_congr_of_span (hwhole : 12 + (decLen s).toNat ≤ s.len.toNat) : decChunk s' = decChunk s :=
  decChunk_congr hsrc (State.memRead_congr_part hspan (i := 0) (by omega))

include hsize hlen hdst

/-- DEC's code is told by its span's bytes, SRC, LEN, DST and the buffer's size: at each stage both spans take the same
branch. -/
theorem decCode_congr_of_span : decCode s' = decCode s := by
  by_cases hin : s.src.toNat + s.len.toNat ≤ s.cfg.bufBytes
  · have hin' : s'.src.toNat + s'.len.toNat ≤ s'.cfg.bufBytes := by rwa [hsrc, hlen, hsize]
    by_cases h8 : 8 ≤ s.len.toNat
    · have hn := decLen_congr_of_span hsrc hspan (by omega)
      have ht := decType_congr_of_span hsrc hspan h8
      by_cases hwhole : 12 + (decLen s).toNat ≤ s.len.toNat
      · exact decCode_congr_of_whole hsize hsrc hdst (decChunk_congr_of_span hsrc hspan hwhole) hin hwhole hin'
          (by rwa [hlen])
      · rw [decCode_of_cut hin h8 (not_le.mp hwhole),
          decCode_of_cut hin' (by rwa [hlen]) (by rw [hn, hlen]; omega), ht]
    · rw [decCode_of_short hin (by omega), decCode_of_short hin' (by rw [hlen]; omega)]
  · rw [decCode_of_outside (not_le.mp hin), decCode_of_outside (by rw [hsrc, hlen, hsize]; omega)]

end SameSpan

/-- Settles O37: ENC's chunk is told by TYPE and the data, and DEC's code and result by the span. -/
theorem outcomesDependOnInputsOnly : Obligations.OutcomesDependOnInputsOnly := by
  refine ⟨fun s s' t t' h hok h' hok' htyp hdata => ?_, fun s s' t t' h h' hsrc hlen hdst hsize hspan => ?_⟩
  · obtain ⟨-, rfl⟩ := execEnc_ok h hok
    obtain ⟨-, rfl⟩ := execEnc_ok h' hok'
    have hlen : s'.len.toNat = s.len.toNat := by simpa using congrArg List.length hdata
    have hcrc : encCrc s' = encCrc s := by rw [encCrc, htyp, hdata, encCrc]
    exact ⟨BitVec.eq_of_toNat_eq hlen, congrArg crcFinal hcrc⟩
  · exact sameDecResult h h' hdst (decCode_congr_of_span hsize hsrc hlen hdst hspan) fun hcode =>
      decChunk_congr_of_span hsrc hspan (whole_of_decCode hcode)

end Sys2Proof.Machine
end

section
/-! The statements of 60_exceptions.md: what a command that raises an error leaves unwritten (R200), and what completion
does to STATUS (R199). -/

namespace Sys2Proof.Machine

/-! ### Errors (R200) -/

/-- A bad type code is no plain error: it clears TCFLAGS. -/
theorem invalidTypeCode_notMem_plainErrors (i : Instr) : ErrCode.invalidTypeCode ∉ plainErrors i := by
  cases i <;> simp [plainErrors]

/-- Settles O41: of the outcomes with an error, a plain error writes nothing but STATUS, a bad type code clears TCFLAGS, and
a mismatch writes the three CRC registers. -/
theorem noPartialResult : Obligations.NoPartialResult := by
  intro i s t h herr
  cases exec_outcome h with
  | plainError hmem =>
    refine ⟨rfl, rfl, rfl, rfl, rfl, rfl, rfl, rfl, fun _ => ⟨rfl, rfl, rfl⟩, fun _ => rfl, fun hbad => ?_⟩
    exact absurd (hbad ▸ hmem) (invalidTypeCode_notMem_plainErrors i)
  | badTypeCode =>
    exact ⟨rfl, rfl, rfl, rfl, rfl, rfl, rfl, rfl, fun _ => ⟨rfl, rfl, rfl⟩, fun hne => absurd rfl hne, fun _ => rfl⟩
  | decMismatch =>
    exact ⟨rfl, rfl, rfl, rfl, rfl, rfl, rfl, rfl, fun hne => absurd rfl hne, fun _ => rfl, fun hbad => by cases hbad⟩
  | crcDone | tcchkDone | encDone | decDone => exact absurd rfl herr

/-! ### Completion (R199) -/

/-- Settles O43: each command ends as the completion of a state with the STATUS it started from, and an illegal word as
the completion of the state itself. -/
theorem completionStatus : Obligations.CompletionStatus := by
  refine ⟨fun i s => ?_, fun s => ⟨s.completed .illegalCommand, rfl, rfl, rfl, rfl, rfl⟩⟩
  obtain ⟨t, ht⟩ := exec_answers i s
  obtain ⟨u, e, rfl, -, hstatus, -⟩ := exec_cases ht
  exact ⟨_, ht, rfl, rfl, (State.completed_status_ovr u e).trans (congrArg Status.ovr hstatus)⟩

end Sys2Proof.Machine
end

section
/-! The statements of 70_reset_and_hazards.md: the first CRC command after reset (R226), the two states of the HCF (R230),
the ENGINE's turn (R231, R232), and host writes while BUSY = 1 (R233). -/

namespace Sys2Proof.Machine

/-! ### The first CRC command after reset (R226) -/

/-- INIT makes no difference where CRC_ACC is already the initial register. -/
theorem crcDone_eq_of_crcAcc_init {s : State} (h : s.crcAcc = crcInit) : crcDone false s = crcDone true s := by
  simp only [crcDone, h, ite_self]

/-- Settles O24: reset sets CRC_ACC to the initial register, and from there the two forms of CRC complete one state. -/
theorem firstCrcAfterReset : Obligations.FirstCrcAfterReset := by
  refine ⟨fun _ => rfl, fun s hacc => ?_⟩
  simp only [exec, execCrc_eq, crcDone_eq_of_crcAcc_init hacc]

/-! ### The ENGINE's turn (R231, R232) -/

theorem engineStep_of_command {s : State} {i : Instr} (h : decode s.cmd = .command i) : engineStep s = exec i s := by
  simp only [engineStep, h]

/-- Settles O45: with a command pending the turn is the ENGINE's step, which decodes CMD. -/
theorem stepRunsTheDecodedCommand : Obligations.StepRunsTheDecodedCommand := by
  intro s hbusy hnext
  rw [step_of_busy hnext hbusy]
  exact ⟨fun _ hcmd => engineStep_of_command hcmd, fun hcmd => engineStep_of_illegal hcmd⟩

/-- With a command pending, the ENGINE's turn ends it, whatever the buffer and the operands hold. -/
theorem step_completes_of_busy {s : State} (hn : engineNext s) (hb : s.status.busy = true) :
    ∃ t, step s = .next t ∧ t.status.busy = false := by
  obtain ⟨u, e, hu, -⟩ := engineStep_cases { s with agenda := s.agenda.tail }
  exact ⟨_, (step_of_busy hn hb).trans hu, u.completed_status_busy e⟩

theorem step_idle_of_engineNext {s t : State} (h : step s = .next t) (hn : engineNext s) (hb : s.status.busy = true) :
    t.status.busy = false := by
  obtain ⟨u, hu, hidle⟩ := step_completes_of_busy hn hb
  injection hu.symm.trans h with hut
  rwa [← hut]

/-- With no command pending, the ENGINE's turn changes nothing but the turns still to come. -/
theorem step_of_idle {s : State} (hn : engineNext s) (hb : s.status.busy = false) :
    step s = .next { s with agenda := s.agenda.tail } := by
  rw [step_engineNext hn, engineTurn, if_neg (by simp [hb])]

/-- Settles O46: the ENGINE's turn in either state, and a legal host access, which never depends on BUSY. -/
theorem everyCommandCompletes : Obligations.EveryCommandCompletes :=
  fun s => ⟨step_completes_of_busy, step_of_idle, fun hc acc => (busErrorsExactly s acc hc).1⟩

/-! ### The two states of the HCF (R230) -/

/-- Everything a step can do to BUSY: keep it, set it by a CMD write while BUSY = 0, or clear it by the ENGINE's turn or a
reset. -/
theorem step_busy_cases {s t : State} (h : step s = .next t) :
    t.status.busy = s.status.busy ∨
    (t.status.busy = true ∧ s.status.busy = false ∧ ∃ w rest, s.agenda = .host (writeSlot s.cfg .cmd w) :: rest) ∨
    (t.status.busy = false ∧ (engineNext s ∨ ∃ rest, s.agenda = .reset :: rest)) := by
  obtain ⟨hn, hb, -⟩ | ⟨-, -, rfl⟩ | ⟨rest, ha, rfl⟩ | ⟨_, _, _, _, _, -, rfl⟩ | ⟨_, _, _, _, -, -, rfl⟩ |
    ⟨r, v, rest, ha, hb, rfl⟩ | ⟨_, _, _, _, _, _, -, -, -, rfl⟩ := step_cases h
  · exact .inr (.inr ⟨step_idle_of_engineNext h hn hb, .inl hn⟩)
  · exact .inl rfl
  · exact .inr (.inr ⟨rfl, .inr ⟨rest, ha⟩⟩)
  · exact .inl rfl
  · exact .inl rfl
  · by_cases hr : r = .cmd
    · subst hr
      exact .inr (.inl ⟨rfl, hb, v, rest, ha⟩)
    · left
      rw [State.respond_status, State.writeReg_status_of_ne_cmd _ v hr]
  · exact .inl rfl

/-- An accepted CMD write makes the HCF BUSY. -/
theorem step_busy_of_cmdWrite {s t : State} {w : Word} {rest : List Turn} (h : step s = .next t)
    (hb : s.status.busy = false) (ha : s.agenda = .host (writeSlot s.cfg .cmd w) :: rest) : t.status.busy = true := by
  rw [step_of_agenda_host ha] at h
  have hwrite := hostAccess_writeSlot_of_idle (s := { s with agenda := rest }) hb .cmd w
  injection hwrite.symm.trans h with ht
  rw [← ht]
  rfl

/-- A reset makes the HCF IDLE (R222). -/
theorem step_idle_of_reset {s t : State} {rest : List Turn} (h : step s = .next t) (ha : s.agenda = .reset :: rest) :
    t.status.busy = false := by
  injection (step_of_agenda_reset ha).symm.trans h with ht
  rw [← ht]
  rfl

/-- Settles O47: `step_busy_cases` tells who changes BUSY; that each of the three does is its own step. -/
theorem lifecycleTransitions : Obligations.LifecycleTransitions := by
  intro s t h
  refine ⟨fun hb => ⟨fun ht => ?_, fun ⟨_, _, ha⟩ => step_busy_of_cmdWrite h hb ha⟩, fun hb => ⟨fun ht => ?_, ?_⟩⟩
  · obtain hkeep | ⟨-, -, hset⟩ | ⟨hclear, -⟩ := step_busy_cases h
    · simp [hb, ht] at hkeep
    · exact hset
    · simp [ht] at hclear
  · obtain hkeep | ⟨hset, -⟩ | ⟨-, hclear⟩ := step_busy_cases h
    · simp [hb, ht] at hkeep
    · simp [ht] at hset
    · exact hclear
  · rintro (hn | ⟨_, ha⟩)
    · exact step_idle_of_engineNext h hn hb
    · exact step_idle_of_reset h ha

/-! ### Host writes while BUSY = 1 (R233) -/

/-- Settles O14: a legal write is performed as the overrun alone, and any other is a bus error. -/
theorem writesWhileBusyIgnored : Obligations.WritesWhileBusyIgnored := by
  intro s bits addr v hc hbusy
  rw [step_hostNext]
  refine ⟨fun hl => ?_, fun hl => hostAccess_faults_of_not_legal hc hl⟩
  have hnext := hostAccess_write_of_legal hc hl v
  rw [hnext, hostAccess_write_of_busy hbusy hnext]
  rfl

end Sys2Proof.Machine
end

section
/-! The invariant of the machine: it holds right after reset (R220) and every step keeps it. One lemma per shared update of
the state comes first; the commands and the step then go by their outcomes. -/

namespace Sys2Proof

open Sys2Proof.Machine

/-! ### The values of TCFLAGS (R38, R137) -/

theorem tcflagsOk_zero : tcflagsOk 0#32 := by
  unfold tcflagsOk
  decide

/-- The flag word of a type code is a legal TCFLAGS: VALID is RESERVED_VALID where all bytes are letters. -/
theorem tcflagsOk_tcFlags {t : List Byte} (h : allAlpha t = true) : tcflagsOk (tcFlags t) := by
  obtain ⟨halpha, -, -, hreserved, -, hvalid⟩ := getLsbD_tcFlags_fields t
  exact ⟨extractLsb'_tcFlags_high t, by rw [hvalid, hreserved, valid_of_allAlpha h], by simp [halpha]⟩

/-! ### The invariant under the shared updates of the state -/

namespace StateInv

/-- Right after reset, for legal parameters. -/
theorem resetOf {c : Config} (hc : c.wf = true) : StateInv (State.resetOf c) :=
  { cfgWf := hc
    memWf := List.Pairwise.nil
    memInside := fun _ hcell => absurd hcell List.not_mem_nil
    errIff := rfl
    busyClear := fun _ => rfl
    tcflagsWf := tcflagsOk_zero
    lengths := .inl ⟨rfl, rfl⟩ }

variable {s : State} (hs : StateInv s)
include hs

/-- The invariant speaks of the parameters, the buffer, STATUS, TCFLAGS, DLEN and RLEN alone. -/
theorem congr {t : State} (hcfg : t.cfg = s.cfg) (hmem : t.mem = s.mem) (hstatus : t.status = s.status)
    (hflags : t.tcflags = s.tcflags) (hdlen : t.dlen = s.dlen) (hrlen : t.rlen = s.rlen) : StateInv t := by
  obtain ⟨hwf, hmwf, hin, herr, hbusy, htc, hl⟩ := hs
  constructor <;> simpa only [hcfg, hmem, hstatus, hflags, hdlen, hrlen]

theorem respond (r : Response) : StateInv (s.respond r) := hs.congr rfl rfl rfl rfl rfl rfl

theorem withAgenda (ts : List Turn) : StateInv { s with agenda := ts } := hs.congr rfl rfl rfl rfl rfl rfl

theorem completed (e : ErrCode) : StateInv (s.completed e) :=
  { hs with
    errIff := rfl
    busyClear := nofun }

theorem overrun : StateInv s.overrun :=
  { hs with
    errIff := hs.errIff
    busyClear := hs.busyClear }

theorem acceptCommand (w : Word) : StateInv (s.acceptCommand w) :=
  { hs with
    errIff := rfl
    busyClear := fun _ => rfl }

theorem applyReset : StateInv s.applyReset := (resetOf hs.cfgWf).congr rfl rfl rfl rfl rfl rfl

/-- A register write reaches the invariant's fields only through CMD. -/
theorem writeReg (v : Word) (r : Reg) : StateInv (s.writeReg v r) := by
  by_cases hr : r = .cmd
  · subst hr
    exact hs.acceptCommand v
  · exact hs.congr (s.writeReg_cfg v r) (s.writeReg_mem v r) (s.writeReg_status_of_ne_cmd v hr)
      (s.writeReg_tcflags v r) (s.writeReg_dlen v r) (s.writeReg_rlen v r)

/-- A span write inside the buffer lists no address outside it. -/
theorem memWrite {a : Nat} {bs : List Byte} (hin : a + bs.length ≤ s.cfg.bufBytes) : StateInv (s.memWrite a bs) :=
  { hs with
    memWf := Memory.write_wf hs.memWf a bs
    memInside := fun cell hcell => by
      obtain hold | ⟨-, hlt⟩ := Memory.mem_write hcell
      · exact hs.memInside cell hold
      · exact Nat.lt_of_lt_of_le hlt hin }

theorem setFlags {w : Word} (hw : tcflagsOk w) : StateInv { s with tcflags := w } := { hs with tcflagsWf := hw }

/-- DLEN and RLEN of a record that fits the buffer. -/
theorem setLengths {n : Word} (hn : n.toNat + 12 ≤ s.cfg.bufBytes) :
    StateInv { s with dlen := n, rlen := BitVec.ofNat 32 (n.toNat + 12) } := by
  have hsize : s.cfg.sizeOk = true := by
    have hwf := hs.cfgWf
    simp only [Config.wf, Bool.and_eq_true] at hwf
    obtain ⟨⟨hsize, -⟩, -⟩ := hwf
    exact hsize
  have hrlen := toNat_ofNat_recordLength hsize hn
  exact { hs with lengths := .inr ⟨hrlen, hrlen.trans_le hn⟩ }

/-! ### The invariant under the commands and the steps -/

theorem encDone (hok : EncOk s) : StateInv (encDone s) :=
  (((hs.memWrite (by rw [encRecord_length]; exact hok.record)).setLengths hok.record_le).setFlags
    (tcflagsOk_tcFlags hok.alpha)).congr rfl rfl rfl rfl rfl rfl

theorem decDone (hok : DecOk s) : StateInv (decDone s) :=
  (((hs.memWrite (by rw [decData_length]; exact hok.output)).setLengths hok.record_le).setFlags
    (tcflagsOk_tcFlags hok.alpha)).congr rfl rfl rfl rfl rfl rfl

end StateInv

/-- A TCCHK that raises nothing has found four letters in TYPE. -/
theorem allAlpha_of_exec_tcchk {s t : State} (h : exec .tcchk s = .next t) (hok : t.status.errcode = .none) :
    allAlpha (tcBytes s.typ) = true := by
  by_contra hbad
  injection (exec_tcchk_of_not_allAlpha (eq_false_of_ne_true hbad)).symm.trans h with ht
  subst ht
  cases hok

theorem StateInv.exec {i : Instr} {s t : State} (hs : StateInv s) (h : exec i s = .next t) : StateInv t := by
  cases exec_outcome h with
  | plainError => exact hs.completed _
  | badTypeCode => exact (hs.setFlags tcflagsOk_zero).completed _
  | crcDone init => exact (hs.congr (t := crcDone init s) rfl rfl rfl rfl rfl rfl).completed _
  | tcchkDone => exact (hs.setFlags (tcflagsOk_tcFlags (allAlpha_of_exec_tcchk h rfl))).completed _
  | encDone hok => exact (hs.encDone hok).completed _
  | decMismatch => exact (hs.congr (t := decMismatch s) rfl rfl rfl rfl rfl rfl).completed _
  | decDone hok => exact (hs.decDone hok).completed _

theorem StateInv.engineStep {s t : State} (hs : StateInv s) (h : engineStep s = .next t) : StateInv t := by
  cases hd : decode s.cmd with
  | command i => exact hs.exec ((engineStep_of_command hd).symm.trans h)
  | illegal =>
    injection (engineStep_of_illegal hd).symm.trans h with ht
    subst ht
    exact hs.completed _

/-- Settles O8: each of the seven things a step can do is built from updates that keep the invariant. -/
theorem invariantKeptByStep : Obligations.InvariantKeptByStep := by
  intro s t hs h
  obtain ⟨-, -, he⟩ | ⟨-, -, rfl⟩ | ⟨rest, -, rfl⟩ | ⟨_, _, rest, _, _, -, rfl⟩ | ⟨_, _, _, rest, -, -, rfl⟩ |
    ⟨r, v, rest, -, -, rfl⟩ | ⟨_, _, _, rest, _, _, -, -, hin, rfl⟩ := step_cases h
  · exact (hs.withAgenda _).engineStep he
  · exact hs.withAgenda _
  · exact (hs.withAgenda rest).applyReset
  · exact hs.congr rfl rfl rfl rfl rfl rfl
  · exact (hs.withAgenda rest).overrun.respond _
  · exact ((hs.withAgenda rest).writeReg v r).respond _
  · exact ((hs.withAgenda rest).memWrite hin).respond _

/-- Settles O7: `State.reset` carries the sample parameters, which are legal. -/
theorem invariantAtReset : Obligations.InvariantAtReset :=
  ⟨fun _ => StateInv.resetOf, StateInv.resetOf (by decide)⟩

end Sys2Proof
end

section
/-! The statements on what an agent's action leaves alone: a command (R44, R190), a host access (R72, R78, R234), and what a
buffer read sees (R12, R72). -/

namespace Sys2Proof.Machine

/-! ### The frames of the commands (R44) -/

section Frame
variable {s t : State}

/-- No command writes the operands, CMD, OVR or the model's own fields. -/
theorem exec_keeps {i : Instr} (h : exec i s = .next t) : t.cfg = s.cfg ∧ t.cmd = s.cmd ∧ t.src = s.src ∧
    t.len = s.len ∧ t.dst = s.dst ∧ t.status.ovr = s.status.ovr ∧ t.agenda = s.agenda ∧ t.resp = s.resp := by
  obtain ⟨u, e, rfl, -, hstatus, hcfg, hcmd, hsrc, hlen, hdst, hagenda, hresp⟩ := exec_cases h
  have hovr : (u.completed e).status.ovr = s.status.ovr := (u.completed_status_ovr e).trans (congrArg Status.ovr hstatus)
  exact ⟨hcfg, hcmd, hsrc, hlen, hdst, hovr, hagenda, hresp⟩

/-- CRC writes CRC_ACC, CRC_OUT and STATUS alone. -/
theorem exec_crc_frame {init : Bool} (h : exec (.crc init) s = .next t) : t.typ = s.typ ∧ t.crcDecl = s.crcDecl ∧
    t.dlen = s.dlen ∧ t.rlen = s.rlen ∧ t.tcflags = s.tcflags ∧ t.mem = s.mem := by
  cases exec_outcome h with
  | badTypeCode hi => simp at hi
  | plainError | crcDone => exact ⟨rfl, rfl, rfl, rfl, rfl, rfl⟩

/-- TCCHK writes TCFLAGS and STATUS alone. -/
theorem exec_tcchk_frame (h : exec .tcchk s = .next t) : t.typ = s.typ ∧ t.crcAcc = s.crcAcc ∧ t.crcOut = s.crcOut ∧
    t.crcDecl = s.crcDecl ∧ t.dlen = s.dlen ∧ t.rlen = s.rlen ∧ t.mem = s.mem := by
  cases exec_outcome h with
  | plainError | badTypeCode | tcchkDone => exact ⟨rfl, rfl, rfl, rfl, rfl, rfl, rfl⟩

theorem exec_enc_frame (h : exec .enc s = .next t) : t.typ = s.typ ∧ t.crcDecl = s.crcDecl := by
  cases exec_outcome h with
  | plainError | badTypeCode | encDone => exact ⟨rfl, rfl⟩

end Frame

/-- Settles O40: `exec_keeps`, and each command's own frame. -/
theorem commandsWriteOnlyTheirRegisters : Obligations.CommandsWriteOnlyTheirRegisters := by
  intro i s t h
  obtain ⟨hcfg, hcmd, hsrc, hlen, hdst, hovr, hagenda, hresp⟩ := exec_keeps h
  refine ⟨hcfg, hcmd, hsrc, hlen, hdst, hovr, hagenda, hresp, fun init hi => ?_, fun hi => ?_, fun hi => ?_⟩
  · obtain ⟨htyp, hdecl, hdlen, hrlen, hflags, hmem⟩ := exec_crc_frame (hi ▸ h)
    exact ⟨htyp, hdecl, hdlen, hrlen, hflags, fun a => by rw [hmem]⟩
  · obtain ⟨htyp, hacc, hout, hdecl, hdlen, hrlen, hmem⟩ := exec_tcchk_frame (hi ▸ h)
    exact ⟨htyp, hacc, hout, hdecl, hdlen, hrlen, fun a => by rw [hmem]⟩
  · exact exec_enc_frame (hi ▸ h)

/-! ### The codes a command can end with (R190) -/

/-- R190's column "raised by", read by command, with the code of success. -/
def endCodes : Instr → List ErrCode
  | .crc _ => [.none, .range]
  | .tcchk => [.none, .invalidTypeCode]
  | .enc => [.none, .invalidTypeCode, .range, .overlap]
  | .dec => [.none, .invalidTypeCode, .truncatedInput, .checksumMismatch, .range, .overlap]

theorem plainErrors_subset_endCodes (i : Instr) : plainErrors i ⊆ endCodes i := by
  cases i <;> simp [plainErrors, endCodes]

theorem errcode_mem_endCodes {i : Instr} {s t : State} (h : exec i s = .next t) : t.status.errcode ∈ endCodes i := by
  cases exec_outcome h with
  | plainError hmem => exact plainErrors_subset_endCodes i hmem
  | badTypeCode hi => obtain rfl | rfl | rfl := hi <;> simp [endCodes]
  | crcDone | tcchkDone | encDone | decMismatch | decDone => simp [endCodes]

/-- Settles O42: each clause is a fact about the list `endCodes` of a command. -/
theorem errorCodesByCommand : Obligations.ErrorCodesByCommand := by
  intro i s t h
  have hmem := errcode_mem_endCodes h
  refine ⟨fun he => ?_, ?_, ?_, ?_⟩
  · rw [he] at hmem
    cases i <;> simp [endCodes] at hmem
  · rintro init rfl
    simpa [endCodes] using hmem
  · rintro rfl
    simpa [endCodes] using hmem
  · rintro rfl
    constructor <;> intro he <;> simp [endCodes, he] at hmem

/-! ### Host reads in either state of the HCF (R72, R234) -/

/-- A read that reaches a window is answered. -/
theorem hostRead_answers (bits : Nat) {t : Target} (ht : t ≠ .outside) (s : State) :
    ∃ x, hostRead bits t s = { s with resp := some x, draws := s.draws + 1 } := by
  cases t with
  | slot r off => exact ⟨_, rfl⟩
  | buffer a =>
    simp only [hostRead]
    split <;> exact ⟨_, rfl⟩
  | outside => exact absurd rfl ht

/-- A legal access reaches a window: an access to neither is a bus error. -/
theorem target_ne_outside_of_legal {c : Config} (hc : c.wf = true) {bits addr : Nat}
    (hl : accessLegal c bits addr) : target c addr ≠ .outside := by
  intro hout
  have hnone := (busError_none_iff hc bits addr).mpr hl
  rw [hout] at hnone
  cases hnone

/-- A legal host read is answered and changes nothing of the HCF, with a command pending or not. -/
theorem step_read_of_legal {s : State} (hc : s.cfg.wf = true) {bits addr : Nat} (hl : accessLegal s.cfg bits addr) :
    ∃ x n, step (hostNext s (.read bits addr)) = .next { s with resp := some x, draws := n } := by
  obtain ⟨x, hx⟩ := hostRead_answers bits (target_ne_outside_of_legal hc hl) s
  exact ⟨x, s.draws + 1, by rw [step_hostNext, hostAccess_read_of_legal hc hl, hx]⟩

/-- STATUS, ID and BUFSIZE read their value in either state of the HCF. -/
theorem State.hostReadReg_of_readable (s : State) {r : Reg} (h : r.readableWhileBusy = true) :
    s.hostReadReg r = s.readReg r := by
  simp [hostReadReg, h]

theorem readableWhileBusy_of_mem : ∀ r ∈ [Reg.status, Reg.id, Reg.bufsize], r.readableWhileBusy = true := by decide

/-- Settles O15: the three readable slots by their value, and any legal read by its answer. -/
theorem readsWhileBusy : Obligations.ReadsWhileBusy := by
  intro s hc _
  refine ⟨fun r hr => ⟨s.draws + 1, ?_⟩, fun _ _ => step_read_of_legal hc⟩
  rw [step_readSlot, s.hostReadReg_of_readable (readableWhileBusy_of_mem r hr)]

/-! ### Buffer reads (R12, R72) -/

/-- A span write leaves what is read outside its span alone, free draws included. -/
theorem State.readByte_memWrite_of_outside (s : State) {a x : Nat} {bs : List Byte}
    (h : x < a ∨ a + bs.length ≤ x) : (s.memWrite a bs).readByte x = s.readByte x := by
  simp only [readByte, memWrite_mem, memWrite_draws, Memory.get?_write_of_outside h]

/-- Settles O19: the memory laws of reads and span writes, and the frame of a legal host read. -/
theorem readReturnsLastWrite : Obligations.ReadReturnsLastWrite := by
  refine ⟨fun _ _ _ => State.readByte_of_get?, fun s a n => ⟨s.memRead_length a n, fun i hi => ?_⟩,
    fun s a bs => ⟨State.memRead_of_mem_eq_write rfl, fun x => s.readByte_memWrite_of_outside⟩,
    fun _ _ _ hc => step_read_of_legal hc⟩
  rw [State.memRead_getElem?, if_pos hi]

/-! ### A pending command and the HOST (R78, R80) -/

theorem eq_hostRead_of_hostAccess {s t : State} {bits addr : Nat} (h : hostAccess (.read bits addr) s = .next t) :
    t = hostRead bits (target s.cfg addr) s := by
  simp only [hostAccess, Access.addr] at h
  split at h
  · cases h
  · injection h with h
    exact h.symm

/-- While BUSY = 1 a host access changes OVR at most, beside the model's own record of it. -/
theorem hostAccess_frame_of_busy {s t : State} {acc : Access} (hb : s.status.busy = true)
    (h : hostAccess acc s = .next t) :
    ∃ o r d, t = { s with status := { s.status with ovr := o }, resp := r, draws := d } := by
  cases acc with
  | read bits addr =>
    obtain ⟨r, d, hr⟩ := hostRead_frame bits (target s.cfg addr) s
    exact ⟨s.status.ovr, r, d, (eq_hostRead_of_hostAccess h).trans hr⟩
  | write bits addr v => exact ⟨true, some .written, s.draws, hostAccess_write_of_busy hb h⟩

/-- Settles O48: no register but STATUS is in the frame of a host access while BUSY = 1. -/
theorem pendingCommandUntouchedByHost : Obligations.PendingCommandUntouchedByHost := by
  intro s t acc hb h
  rw [step_hostNext] at h
  obtain ⟨o, r, d, rfl⟩ := hostAccess_frame_of_busy hb h
  refine ⟨hb, rfl, rfl, rfl, fun q hq => ?_⟩
  cases q with
  | status => exact absurd rfl hq
  | _ => rfl

end Sys2Proof.Machine
end

section
/-! The statements on the encoding of command words (30_encoding.md) and on the values a reset leaves (R220). -/

namespace Sys2Proof

/-- Settles O5: `decode_encode`, and that a word which decodes to a command is its encoding. -/
theorem encodeDecodeAgree : Obligations.EncodeDecodeAgree :=
  ⟨fun i _ => decode_encode i, fun _ _ h => (eq_encode_of_decode h).symm⟩

/-- Settles O3: `decode` evaluated on the listed words. -/
theorem commandWordsDecode : Obligations.CommandWordsDecode :=
  ⟨by decide, by decide, by decide, by decide, by decide, by simp [decode]⟩

end Sys2Proof

namespace Sys2Proof.Machine

/-- Settles O6: the reset turn is `applyReset`, and its STATUS word is 0. -/
theorem resetValues : Obligations.ResetValues := by
  intro s rest ha
  exact ⟨_, step_of_agenda_reset ha, rfl, rfl, rfl, rfl, Status.word_reset, rfl, rfl, rfl, rfl, rfl, rfl, rfl, rfl, rfl,
    rfl, rfl, rfl, rfl, rfl, Memory.get?_nil⟩

end Sys2Proof.Machine
end

section
/-! Two statements of 42_framer.md: DEC is the source's `Chunk.decode` on its span (R162 to R167), and DEC detects one
changed byte of type code or data (R173). -/

namespace Sys2Proof.Machine

/-! ### `Chunk.decode` on DEC's span, stage by stage (R163 to R166) -/

/-- A part of a span read is a span read of its own. -/
theorem State.take_drop_memRead (s : State) (a : Nat) {i k n : Nat} (h : i + k ≤ n) :
    ((s.memRead a n).drop i).take k = s.memRead (a + i) k := by
  rw [memRead_drop _ _ _ _ (by omega), memRead_take _ _ _ _ (by omega)]

theorem decode_of_short {s : State} (h : s.len.toNat < 8) :
    Chunk.decode (s.memRead s.src.toNat s.len.toNat) = .error .truncatedInput := by
  simp only [Chunk.decode, State.memRead_length, h, if_true, ite_self]

/-- A span with room for length and type code is judged by the fields that DEC reads. -/
theorem decode_eq_of_long {s : State} (h8 : 8 ≤ s.len.toNat) : Chunk.decode (s.memRead s.src.toNat s.len.toNat) =
    if allAlpha (decType s) = false then .error .invalidTypeCode
    else if s.len.toNat < 12 + (decLen s).toNat then .error .truncatedInput
    else if crcFinal (decCrc s) ≠ decDecl s then .error (.checksumMismatch (decDecl s) (crcFinal (decCrc s)))
    else .ok (decChunk s) := by
  have hlen : be32 ((s.memRead s.src.toNat s.len.toNat).take 4) = decLen s := by
    rw [State.memRead_take _ _ _ _ (by omega), decLen]
  have htype : ((s.memRead s.src.toNat s.len.toNat).drop 4).take 4 = decType s :=
    State.take_drop_memRead _ _ (by omega)
  simp only [Chunk.decode, State.memRead_length, show ¬ s.len.toNat < 4 by omega, show ¬ s.len.toNat < 8 by omega,
    if_false, hlen, htype, Bool.not_eq_true']
  by_cases hcut : s.len.toNat < 12 + (decLen s).toNat
  · simp only [hcut, if_true, ite_self]
  · have hdata : ((s.memRead s.src.toNat s.len.toNat).drop 8).take (decLen s).toNat = decData s :=
      State.take_drop_memRead _ _ (by omega)
    have hdecl : be32 (((s.memRead s.src.toNat s.len.toNat).drop (8 + (decLen s).toNat)).take 4) = decDecl s := by
      rw [State.take_drop_memRead _ _ (by omega), decDecl, Nat.add_assoc]
    simp only [hcut, show ¬ s.len.toNat < 8 + (decLen s).toNat by omega, if_false, hdata, hdecl]
    rfl

/-! ### DEC as the source's `Chunk.decode` -/

theorem chunkDecodeResult_of_error {t : State} {e : HostError} (dst : Nat)
    (h : hostErrorOf t t.status.errcode = some e) : chunkDecodeResult t dst = .error e := by
  rw [chunkDecodeResult, h]

/-- The host reads the chunk of DEC's fields off the state that a success completes. -/
theorem chunkDecodeResult_of_decDone (s : State) :
    chunkDecodeResult ((decDone s).completed .none) s.dst.toNat = .ok (decChunk s) := by
  have hdata : ((decDone s).completed .none).memRead s.dst.toNat (decLen s).toNat = decData s := memRead_of_decDone rfl
  simp [chunkDecodeResult, hostErrorOf, hdata, tcBytes, toBe32_be32 (decType_length s), decChunk]

theorem decChunk_encode_length (s : State) : (decChunk s).encode.length = (decLen s).toNat + 12 := by
  rw [decChunk_encode, State.memRead_length]

/-- The length of a record in DEC's span fits RLEN, as LEN is a word. -/
theorem toNat_ofNat_decRecordLength {s : State} (hwhole : 12 + (decLen s).toNat ≤ s.len.toNat) :
    (BitVec.ofNat 32 ((decLen s).toNat + 12)).toNat = (decLen s).toNat + 12 := by
  have := s.len.isLt
  rw [BitVec.toNat_ofNat, Nat.mod_eq_of_lt (by omega)]

/-- Letters and a checksum that agrees make DEC's fields a valid chunk, wherever its output may go. -/
theorem decChunk_valid_of_sum {s : State} (ht : allAlpha (decType s) = true) (hsum : crcFinal (decCrc s) = decDecl s) :
    (decChunk s).valid = true :=
  (Chunk.valid_iff _).mpr ⟨(decData_length s).symm, ht, hsum.symm⟩

/-- Settles O32: `Chunk.decode` and DEC take the same branch at each stage, and the output span's two tests come after
them. -/
theorem decRefinesChunkDecode : Obligations.DecRefinesChunkDecode := by
  intro s hin
  refine ⟨_, exec_dec_eq s, ?_⟩
  obtain h8 | h8 := Nat.lt_or_ge s.len.toNat 8
  · rw [decode_of_short h8, decCode_of_short hin h8]
    exact chunkDecodeResult_of_error _ rfl
  rw [decode_eq_of_long h8]
  cases ht : allAlpha (decType s) with
  | false =>
    rw [if_pos rfl, decCode_of_badType hin h8 ht]
    exact chunkDecodeResult_of_error _ rfl
  | true =>
    rw [if_neg (by decide)]
    obtain hcut | hwhole := Nat.lt_or_ge s.len.toNat (12 + (decLen s).toNat)
    · rw [if_pos hcut, decCode_of_cut hin h8 hcut, if_pos ht]
      exact chunkDecodeResult_of_error _ rfl
    rw [if_neg (not_lt.mpr hwhole), decCode_of_whole hin hwhole]
    by_cases hsum : crcFinal (decCrc s) = decDecl s
    · rw [if_neg (not_not.mpr hsum)]
      simp only [decChunk_encode_length, show (decChunk s).data.length = (decChunk s).length.toNat from decData_length s]
      refine ⟨decChunk_valid_of_sum ht hsum, fun hout => ?_, fun hout hover => ?_, fun hout hapart => ?_⟩
      · exact recordCode_of_outside (c := decChunk s) ht hsum hout
      · exact recordCode_of_overlap (c := decChunk s) ht hsum hout hover
      · rw [recordCode_of_apart (c := decChunk s) ht hsum hout hapart]
        exact ⟨rfl, toNat_ofNat_decRecordLength hwhole, chunkDecodeResult_of_decDone s⟩
    · rw [if_pos hsum, recordCode_of_mismatch (c := decChunk s) ht hsum]
      exact chunkDecodeResult_of_error _ rfl

/-! ### One changed byte (R173) -/

/-- One changed byte changes the CRC register: the byte step keeps the difference, and no later step loses it. -/
theorem crcFeed_ne_of_byte_ne (c : Word) (pre post : List Byte) {x y : Byte} (h : x ≠ y) :
    crcFeed c (pre ++ x :: post) ≠ crcFeed c (pre ++ y :: post) := by
  intro heq
  simp only [crcFeed_append, crcFeed_cons] at heq
  have hbytes := crcUpdate_inj (crcFeed_left_inj post heq)
  rw [BitVec.xor_self] at hbytes
  have hword : x.setWidth 32 = y.setWidth 32 := BitVec.xor_eq_zero_iff.mp hbytes.symm
  exact h (by simpa using congrArg (BitVec.setWidth 8) hword)

/-- The bytes of a span around one of them. -/
theorem State.memRead_split (s : State) (a k m : Nat) :
    s.memRead a (k + 1 + m) = s.memRead a k ++ s.readByte (a + k) :: s.memRead (a + k + 1) m := by
  rw [memRead_add, memRead_add, List.append_assoc]
  rfl

theorem allAlpha_memRead_four_iff (s : State) (a : Nat) :
    allAlpha (s.memRead a 4) = true ↔ ∀ j < 4, alpha (s.readByte (a + j)) = true := by
  have hbytes : s.memRead a 4 = [s.readByte a, s.readByte (a + 1), s.readByte (a + 2), s.readByte (a + 3)] := rfl
  rw [hbytes, allAlpha_four_iff]
  constructor
  · rintro ⟨h0, h1, h2, h3⟩ j hj
    interval_cases j
    · exact h0
    · exact h1
    · exact h2
    · exact h3
  · exact fun h => ⟨h 0 (by decide), h 1 (by decide), h 2 (by decide), h 3 (by decide)⟩

section Tampered
variable {s s' : State} {i : Nat} {x : Byte} (hsrc : s'.src = s.src)
  (hbytes : ∀ j < s.len.toNat, s'.readByte (s.src.toNat + j) = if j = i then x else s.readByte (s.src.toNat + j))
include hsrc hbytes

/-- A part of the span without the changed byte. -/
theorem memRead_eq_of_tampered {o k : Nat} (hi : i < o ∨ o + k ≤ i) (hk : o + k ≤ s.len.toNat) :
    s'.memRead (s'.src.toNat + o) k = s.memRead (s.src.toNat + o) k := by
  rw [hsrc]
  refine State.memRead_congr fun j hj => ?_
  rw [Nat.add_assoc, hbytes (o + j) (by omega), if_neg (by omega)]

theorem decLen_of_tampered (h4 : 4 ≤ i) (hlen : 4 ≤ s.len.toNat) : decLen s' = decLen s :=
  congrArg be32 (memRead_eq_of_tampered hsrc hbytes (o := 0) (k := 4) (by omega) (by omega))

/-- The letters of the changed record are those of the record, but for the changed byte. -/
theorem allAlpha_decType_of_tampered_iff (h4 : 4 ≤ i) (h8 : 8 ≤ s.len.toNat)
    (ht : allAlpha (decType s) = true) : allAlpha (decType s') = true ↔ ¬ (i < 8 ∧ alpha x = false) := by
  have hbyte (j : Nat) (hj : j < 4) :
      s'.readByte (s.src.toNat + 4 + j) = if 4 + j = i then x else s.readByte (s.src.toNat + 4 + j) := by
    rw [Nat.add_assoc, hbytes _ (by omega)]
  rw [decType, allAlpha_memRead_four_iff] at ht ⊢
  rw [hsrc]
  refine ⟨fun hall ⟨hi8, hbad⟩ => ?_, fun hgood j hj => ?_⟩
  · have hx := hall (i - 4) (by omega)
    rw [hbyte _ (by omega), if_pos (by omega), hbad] at hx
    cases hx
  · rw [hbyte j hj]
    split
    · exact eq_true_of_ne_false fun hbad => hgood ⟨by omega, hbad⟩
    · exact ht j hj

variable (h4 : 4 ≤ i) (hi : i < 8 + (decLen s).toNat) (hwhole : 12 + (decLen s).toNat ≤ s.len.toNat)
include h4 hi hwhole

theorem decDecl_of_tampered : decDecl s' = decDecl s := by
  simp only [decDecl, decLen_of_tampered hsrc hbytes h4 (by omega), Nat.add_assoc]
  exact congrArg be32 (memRead_eq_of_tampered hsrc hbytes (by omega) (by omega))

/-- The checksummed bytes differ in the changed one alone, so the CRC registers differ. -/
theorem decCrc_ne_of_tampered (hx : x ≠ s.readByte (s.src.toNat + i)) : decCrc s' ≠ decCrc s := by
  have hspan (u : State) : decType u ++ decData u = u.memRead (u.src.toNat + 4) (4 + (decLen u).toNat) :=
    (u.memRead_add _ _ _).symm
  obtain ⟨k, rfl⟩ := Nat.exists_eq_add_of_le h4
  obtain ⟨m, hm⟩ := Nat.exists_eq_add_of_le (show k + 1 ≤ 4 + (decLen s).toNat by omega)
  have hpre : s'.memRead (s'.src.toNat + 4) k = s.memRead (s.src.toNat + 4) k :=
    memRead_eq_of_tampered hsrc hbytes (by omega) (by omega)
  have hbyte : s'.readByte (s'.src.toNat + 4 + k) = x := by
    rw [hsrc, Nat.add_assoc, hbytes _ (by omega), if_pos rfl]
  have hpost : s'.memRead (s'.src.toNat + 4 + k + 1) m = s.memRead (s.src.toNat + 4 + k + 1) m := by
    simpa only [Nat.add_assoc] using
      memRead_eq_of_tampered hsrc hbytes (o := 4 + (k + 1)) (k := m) (by omega) (by omega)
  rw [← Nat.add_assoc] at hx
  rw [decCrc, decCrc, hspan, hspan, decLen_of_tampered hsrc hbytes h4 (by omega), hm, State.memRead_split,
    State.memRead_split, hpre, hbyte, hpost]
  exact crcFeed_ne_of_byte_ne _ _ _ hx

end Tampered

theorem recordCode_of_badType {size src dst : Nat} {c : Chunk} (h : allAlpha c.typeCode = false) :
    recordCode size src dst c = .invalidTypeCode := if_pos h

/-- Settles O35: the changed record still has its length and its declared checksum, so the letters decide, and after them
the CRC, which tells every change of one byte. -/
theorem oneByteTamperDetected : Obligations.OneByteTamperDetected := by
  intro s s' t i x h hok hcfg hsrc hlen h4 hi hx hbytes
  obtain ⟨hs, rfl⟩ := execDec_ok h hok
  have hwhole := hs.long
  have hn := decLen_of_tampered hsrc hbytes h4 (by omega)
  have hcode : decCode s' = recordCode s'.cfg.bufBytes s'.src.toNat s'.dst.toNat (decChunk s') :=
    decCode_of_whole (by rw [hcfg, hsrc, hlen]; exact hs.input) (by rwa [hn, hlen])
  have halpha := allAlpha_decType_of_tampered_iff hsrc hbytes h4 (by omega) hs.alpha
  refine ⟨_, exec_dec_eq s', ?_⟩
  rw [State.completed_status_errcode, hcode]
  split
  case isTrue hbad => exact recordCode_of_badType (eq_false_of_ne_true fun hall => halpha.mp hall hbad)
  case isFalse hgood =>
    have hcrc : decCrc s' ≠ decCrc s := decCrc_ne_of_tampered hsrc hbytes h4 hi hwhole hx
    have hdecl : decDecl s' = decDecl s := decDecl_of_tampered hsrc hbytes h4 hi hwhole
    refine recordCode_of_mismatch (c := decChunk s') (halpha.mpr hgood) fun hsum => hcrc ?_
    have hfinal : crcFinal (decCrc s') = crcFinal (decCrc s) := hsum.trans (hdecl.trans hs.sum.symm)
    exact (BitVec.xor_left_inj _).mp hfinal

end Sys2Proof.Machine
end
